-- ==== Sys2Proof/Config.lean ====
section
/-!
DEFINITION. What the spec leaves to an implementation (00_scope.md section 4): the open
parameters, held as plain data that every statement can quantify over, the two constants the
source fixes, and the free values, which have no body and of which nothing can be proved.
-/

namespace Sys2Proof

/-- The open parameters of 00_scope.md section 4. A machine carries one value of this type and
no step changes it. `TICK_HZ` is not here: it is on the configure port (R31), and
`DISABLE_FAIL_POLICY` is not here: the run is refused (R102, log entry 14). -/
structure Config where
  /-- `TICK_W`: width of the tick counter, of `now` and of `rx.lastEdgeTimestamp` (D1). -/
  tickW : Nat
  /-- `ACC_W`: width of `rx.accumulatedBits`, at least 16 (D2). -/
  accW : Nat
  /-- `CNT_W`: width of `rx.halfBitCount`, at least 6 (D3). -/
  cntW : Nat
  /-- `RESULT_W`: width of the signed result codes (D17). -/
  resultW : Nat
  /-- `CLEAR_ON_READ`: whether `READ_STATUS` clears `frameReady` (D16). -/
  clearOnRead : Bool
  /-- `T_HALF_NS` (D4). -/
  tHalfNs : Nat
  /-- `T_FULL_NS` (D4). -/
  tFullNs : Nat
  /-- `T_SL_NS` (D4). -/
  tSlNs : Nat
  /-- `T_IDLE_NS` (D4). -/
  tIdleNs : Nat
  /-- `T_RESET_NS` (D4). -/
  tResetNs : Nat
  /-- `LAST_EDGE_RESET`: power-on value of `rx.lastEdgeTimestamp` (D7). -/
  lastEdgeReset : Nat
  /-- Power-on value of the tick counter, any value (R24, R117). -/
  tickReset : Nat
  deriving DecidableEq, Repr

namespace Config

/-- The defaults of 00_scope.md section 4. `lastEdgeReset` and `tickReset` have no default in the
spec. DESIGN CHOICE (unsafe): both are 0 here, log entries 3 and 4. -/
def standard : Config where
  tickW := 32
  accW := 16
  cntW := 8
  resultW := 32
  clearOnRead := false
  tHalfNs := 416667
  tFullNs := 833333
  tSlNs := 625000
  tIdleNs := 5500000
  tResetNs := 5500000
  lastEdgeReset := 0
  tickReset := 0

/-- What 00_scope.md section 4 asks of the widths: `ACC_W >= 16`, `CNT_W >= 6`, and widths that
are widths. -/
abbrev Admissible (c : Config) : Prop :=
  0 < c.tickW ∧ 16 ≤ c.accW ∧ 6 ≤ c.cntW ∧ 0 < c.resultW

/-- FREE VALUE (log entry 12): which held request starts next, or that none starts yet (R106,
U16). No body: nothing is known of it. -/
opaque freeChoice : Nat → Nat

end Config

/-- `FRAME_READY_COUNT` (00_scope.md section 4, R84). -/
def frameReadyCount : Nat := 17

/-- `TX_FRAME_BITS` (00_scope.md section 4, R47). -/
def txFrameBits : Nat := 17

end Sys2Proof
end

