-- ==== Sys2Proof/Word.lean ====
section
/-!
DEFINITION. The word types of the block (00_scope.md section 5, 20_memory.md R36): a byte, the
19-bit command word of R53, the 17-bit transmit frame of R47, and the level of a line.
Registers whose width is an open parameter of the spec are natural numbers, reduced where the
rules reduce them (R86), and stand in Machine/State.lean.
-/

namespace Sys2Proof

/-- A payload byte (R36, R55). -/
abbrev Byte := BitVec 8

/-- A command word, `op[2:0] ++ a[7:0] ++ d[7:0]` (R53). -/
abbrev CmdWord := BitVec 19

/-- A transmit frame, bit 16 sent first (R47). -/
abbrev Frame := BitVec 17

/-- A level of a line, and a bit: `true` is 1, high, the idle level (00_scope.md section 5). -/
abbrev Level := Bool

end Sys2Proof
end

