-- ==== Sys2Proof/Machine/Bits.lean ====
section
/-!
DEFINITION. Bit strings, first bit most significant: the one order in which this block sends and
assembles bits (R33, R34, R51, R52).
-/

namespace Sys2Proof

/-- The bits of `v` from bit `n - 1` down to bit 0 (R51). -/
def msbBits {n : Nat} (v : BitVec n) : List Level :=
  (List.range n).map fun i => v.getLsbD (n - 1 - i)

/-- A bit string read as a binary number, first bit most significant (R52). -/
def ofMsbBits (bs : List Level) : Nat :=
  bs.foldl (fun acc b => 2 * acc + b.toNat) 0

/-- The `n` low bits of `w`, bit `n - 1` first. -/
def natBits (n w : Nat) : List Level := msbBits (BitVec.ofNat n w)

end Sys2Proof
end

