-- ==== Sys2Proof/Syntax.lean ====
section
/-!
DEFINITION. The operations of the block: one constructor per row of spec/opcode_table.json.
Eight rows are command words (R53), three are the interval classes of `ON_EDGE`, which share its
command word and are selected by the elapsed time (R49, R53), and five are the line symbols and
frame formats of R45, R47, R48 and R74.
-/

namespace Sys2Proof

/-- One row of the opcode table, with its operands. `TICK_HZ` of `CONFIGURE` and `now` of
`ON_EDGE` are not operands of the command word: they are on ports (R31). -/
inductive Instr where
  /-- `CONFIGURE` (R60). -/
  | configure
  /-- `EMIT_BIT b` (R70). -/
  | emitBit (b : Level)
  /-- `EMIT_BYTE v` (R72). -/
  | emitByte (v : Byte)
  /-- `EMIT_IDLE` (R74). -/
  | emitIdle
  /-- `TRANSFER a, d` (R100). -/
  | transfer (a d : Byte)
  /-- `ON_EDGE`, its timestamp on the edge-event port (R80). -/
  | onEdge
  /-- `ON_EDGE.RESET`: an `ON_EDGE` whose elapsed time is of class RESET (R81). -/
  | onEdgeReset
  /-- `ON_EDGE.LONG`: an `ON_EDGE` whose elapsed time is of class LONG (R82). -/
  | onEdgeLong
  /-- `ON_EDGE.SHORT`: an `ON_EDGE` whose elapsed time is of class SHORT (R83). -/
  | onEdgeShort
  /-- `READ_STATUS` (R88). -/
  | readStatus
  /-- `RESERVED_111` (R56). -/
  | reserved111
  /-- `SYM_BIT0`: the line symbol of bit 0 (R45). -/
  | symBit0
  /-- `SYM_BIT1`: the line symbol of bit 1 (R45). -/
  | symBit1
  /-- `SYM_IDLE`: the idle gap on the line (R74). -/
  | symIdle
  /-- `FRAME_TX`: the 17-bit transmit frame on the line (R47). -/
  | frameTx (a d : Byte)
  /-- `FRAME_RX`: the 9-bit receive frame (R48). -/
  | frameRx (d : Byte)
  deriving DecidableEq, Repr

end Sys2Proof
end

