-- ==== Sys2Proof/Decode.lean ====
section
/-!
DEFINITION. The decoder of the two kinds of encoding the spec has, and the encoder from the same
tables: the 19-bit command words of R53, and the bit strings of the line symbols and frame formats
of R45, R47, R48 and R74, which their length tells apart.
-/

namespace Sys2Proof

/-- Something to decode: a command word on the command port (R53), or a bit string of the line
formats, first bit first (R45, R47, R48). -/
inductive Encoding where
  | command (w : CmdWord)
  | line (bits : List Level)
  deriving DecidableEq, Repr

/-- Why a bit string is no encoding. -/
inductive Reject where
  /-- The pairs `00` and `11` are not symbols (R45). -/
  | notASymbol
  /-- A single half-level that is low: the idle level is 1 (R74). -/
  | notIdleLevel
  /-- A frame of 9 or 17 bits whose first bit is not the start bit 1 (R47, R48). -/
  | noStartBit
  /-- No format of the spec has this length. -/
  | noSuchFormat
  deriving DecidableEq, Repr

/-- The operation of a command word (R53). The operand bits an operation does not use are ignored
(D12). -/
def decodeCommand (w : CmdWord) : Instr :=
  match (w.extractLsb' 16 3).toNat with
  | 0 => .configure
  | 1 => .emitBit (w.getLsbD 0)
  | 2 => .emitByte (w.extractLsb' 0 8)
  | 3 => .emitIdle
  | 4 => .transfer (w.extractLsb' 8 8) (w.extractLsb' 0 8)
  | 5 => .onEdge
  | 6 => .readStatus
  | _ => .reserved111

/-- The byte whose bits, bit 7 first, are `bs`. -/
def byteOf (bs : List Level) : Byte := BitVec.ofNat 8 (ofMsbBits bs)

/-- A frame after its start bit: eight bits are the receive format (R48), sixteen the transmit
format (R47). -/
def decodePayload (bs : List Level) : Except Reject Instr :=
  if bs.length = 8 then .ok (.frameRx (byteOf bs))
  else if bs.length = 16 then .ok (.frameTx (byteOf (bs.take 8)) (byteOf (bs.drop 8)))
  else .error .noSuchFormat

/-- The row of a bit string of the line formats (R45, R47, R48, R74). -/
def decodeLine : List Level → Except Reject Instr
  | [true] => .ok .symIdle
  | [false] => .error .notIdleLevel
  | [true, false] => .ok .symBit0
  | [false, true] => .ok .symBit1
  | [true, true] | [false, false] => .error .notASymbol
  | true :: bs => decodePayload bs
  | false :: bs => if bs.length = 8 ∨ bs.length = 16 then .error .noStartBit else .error .noSuchFormat
  | [] => .error .noSuchFormat

/-- The decoder, total on every encoding and rejecting by name. -/
def decode : Encoding → Except Reject Instr
  | .command w => .ok (decodeCommand w)
  | .line bits => decodeLine bits

/-- A command word from its three fields (R53). -/
def commandWord (op : BitVec 3) (a d : Byte) : CmdWord := op ++ a ++ d

/-- The encoding of an operation, unused operand bits written as 0 (R53). The interval classes of
`ON_EDGE` share its word (R53). -/
def encode : Instr → Encoding
  | .configure => .command (commandWord 0b000 0 0)
  | .emitBit b => .command (commandWord 0b001 0 ((BitVec.ofBool b).setWidth 8))
  | .emitByte v => .command (commandWord 0b010 0 v)
  | .emitIdle => .command (commandWord 0b011 0 0)
  | .transfer a d => .command (commandWord 0b100 a d)
  | .onEdge | .onEdgeReset | .onEdgeLong | .onEdgeShort => .command (commandWord 0b101 0 0)
  | .readStatus => .command (commandWord 0b110 0 0)
  | .reserved111 => .command (commandWord 0b111 0 0)
  | .symBit0 => .line [true, false]
  | .symBit1 => .line [false, true]
  | .symIdle => .line [true]
  | .frameTx a d => .line (true :: (msbBits a ++ msbBits d))
  | .frameRx d => .line (true :: msbBits d)

/-- The encoding behind a row of the opcode table whose bits are the number `w`: 19 bits (24 in
whole bytes) are a command word, the shorter ones are line formats, in the length of the format
the byte count leaves possible. DESIGN CHOICE: log entry 17. -/
def tableEncoding (nbits w : Nat) : Encoding :=
  if 18 ≤ nbits then .command (BitVec.ofNat 19 w)
  else if nbits = 16 then .line (natBits 9 w)
  else if nbits = 8 then .line (natBits 2 w)
  else .line (natBits nbits w)

/-- What the decoder reads from an instruction whose bits are `w`. -/
def decodeTableWord (nbits w : Nat) : Option Instr :=
  (decode (tableEncoding nbits w)).toOption

end Sys2Proof
end

