-- ==== Sys2Proof/Machine/State.lean ====
section
/-!
DEFINITION. The state of one transceiver instance and of the part of its environment the rules
read or call (10_state.md): the TimingTable, the ReceiverState, the transmit sequencer, the I/O
capability, the ports, the tick counter, and the requests and inputs still to come. Plain data.
-/

namespace Sys2Proof.Machine

/-- The TimingTable: five durations in ticks (R10). Natural numbers, since each register is wide
enough to hold its value without loss. -/
structure TimingTable where
  halfBit : Nat
  fullBit : Nat
  shortLongBoundary : Nat
  idleThreshold : Nat
  resetThreshold : Nat
  deriving DecidableEq, Repr

/-- The ReceiverState (R13). The first three are registers of `TICK_W`, `ACC_W` and `CNT_W` bits. -/
structure ReceiverState where
  lastEdgeTimestamp : Nat
  accumulatedBits : Nat
  halfBitCount : Nat
  lastDecodedBit : Level
  frameReady : Bool
  deriving DecidableEq, Repr

/-- What the sequencer is sending: which schedule `tx.step` indexes. `frame` is the transmit frame
without the bracket of `TRANSFER` (`FRAME_TX`, R47). -/
inductive TxOp where
  | emitBit
  | emitByte
  | emitIdle
  | transfer
  | frame
  deriving DecidableEq, Repr

/-- A request for the sequencer: the operation, and the bits to be sent in the low positions of a
17-bit frame. -/
structure TxRequest where
  op : TxOp
  frame : Frame
  deriving DecidableEq, Repr

/-- The transmit sequencer (R17). `op` says which schedule `step` indexes and means nothing while
`busy` is false. -/
structure TxState where
  busy : Bool
  step : Nat
  timer : Nat
  frame : Frame
  result : Int
  op : TxOp
  deriving DecidableEq, Repr

/-- The environment's I/O capability state (R19), with the codes the capability will report when
its disable and enable operations are next called (R118). -/
structure IoState where
  outLevel : Level
  inLevel : Level
  edgeDetect : Bool
  disableResult : Int
  enableResult : Int
  deriving DecidableEq, Repr

/-- The values the host holds on the configure port and on the edge-event port (R31). -/
structure Ports where
  tickHz : Nat
  now : Nat
  deriving DecidableEq, Repr

/-- What the block shows at its ports (R25): the capability calls of the transmit agent, with what
they reported, the result of a transfer, and the answer of `READ_STATUS`. -/
inductive Output where
  | setOutputLevel (level : Level)
  | disableInputEdgeDetection (code : Int)
  | enableInputEdgeDetection (code : Int)
  | result (code : Int)
  | status (frameReady : Bool) (bits : BitVec 16)
  deriving DecidableEq, Repr

/-- What the host and the environment can do to the block (R31, R114, R118, R136). -/
inductive Input where
  /-- A command word on the command port (R53). -/
  | command (w : CmdWord)
  /-- A bit string of the line formats: the block is asked to put the symbol or transmit frame on
  its line, or the receive frame arrives. The model's own way in for the rows of the opcode table
  that have no command word (log entry 16). -/
  | line (bits : List Level)
  /-- The host puts a tick frequency on the configure port (R31). -/
  | configurePort (tickHz : Nat)
  /-- The host puts a timestamp on the edge-event port (R31). -/
  | edgePort (now : Nat)
  /-- The input line is driven to a level (R114). -/
  | lineIn (level : Level)
  /-- The host itself calls `enableInputEdgeDetection` (R136). -/
  | hostEnable
  /-- The host itself calls `disableInputEdgeDetection` (R114). -/
  | hostDisable
  /-- The codes the capability will report from now on (R118). -/
  | capabilityCodes (disable enable : Int)
  deriving DecidableEq, Repr

/-- An input, how many ticks pass before it arrives after the one before it, and whether, arriving
at a tick at which the transmit agent makes calls or takes a held request, it takes effect after
that and not before (log entries 15 and 22). -/
structure Arrival where
  delay : Nat
  input : Input
  afterCalls : Bool := false
  deriving DecidableEq, Repr

/-- The block and its environment. -/
structure State where
  /-- The open parameters (00_scope.md section 4, log entry 1). No step changes them. -/
  cfg : Config
  /-- The TimingTable, which has no value until `CONFIGURE` (R11, R24, log entry 2). -/
  tt : Option TimingTable
  /-- The ReceiverState (R13). -/
  rx : ReceiverState
  /-- The transmit sequencer (R17). -/
  tx : TxState
  /-- The I/O capability (R19). -/
  io : IoState
  /-- The host's values on the configure and edge-event ports (R31). -/
  ports : Ports
  /-- The tick counter (R20). -/
  tick : Nat
  /-- Requests held until the sequencer is free, in no order that counts (R106). -/
  held : List TxRequest
  /-- The inputs still to come, the next one first. -/
  inbox : List Arrival
  /-- The outputs so far, each with the tick it was made at, the latest first (R25). -/
  trace : List (Nat × Output)
  /-- MODEL'S OWN: how many free values have been drawn (log entry 12). -/
  choices : Nat
  deriving DecidableEq, Repr

/-- The block raises no fault: decoding never fails and there is no trap (R113, R119), so no step
answers one. -/
inductive Fault where
  deriving DecidableEq, Repr

/-- Why the model gives a situation no meaning. Each is one the spec itself refuses, so each is
SAFE: a run stops where the spec gives it no continuation. -/
inductive Refusal where
  /-- No meaning written yet. Raised by no arm of exec. Safe. -/
  | notModelled (mnemonic : String)
  /-- An operation read the TimingTable before `CONFIGURE` (R11, R134): every `EMIT_*`, `TRANSFER`,
  `ON_EDGE`, line symbol and frame. Safe. -/
  | notConfigured
  /-- A second `CONFIGURE` (R11, R60). Raised by `CONFIGURE`. Safe. -/
  | secondConfigure
  /-- `CONFIGURE` with `TICK_HZ = 0` (R63, U1). Safe. -/
  | zeroTickFrequency
  /-- Disabling edge detection failed at step 1 of a `TRANSFER` (R102, U2). Safe. -/
  | disableFailed
  /-- The operation code 111 (R56, U17). Safe. -/
  | reservedOpcode
  /-- An interval-class row of `ON_EDGE` whose selector does not hold: the spec has no such
  operation, since the elapsed time selects another row (R49, R53). Safe. -/
  | classNotSelected
  /-- A bit string that is no line format (R45, R47, R48). Raised on delivery. Safe. -/
  | undecodable (why : Reject)
  deriving DecidableEq, Repr

/-- The power-on state (R24, R130) of a machine with the parameters `c`.
DESIGN CHOICE where R24 gives no value: `io.inLevel` is 1 (log entry 5), the codes the capability
will report are 0 (log entry 6), the ports hold `TICK_HZ` 1 000 000 and `now` 0 (log entry 7), and
the model's own fields are empty or 0 (log entry 8). -/
def State.resetWith (c : Config) : State where
  cfg := c
  tt := none
  rx :=
    { lastEdgeTimestamp := c.lastEdgeReset % 2 ^ c.tickW
      accumulatedBits := 0
      halfBitCount := 0
      lastDecodedBit := true
      frameReady := false }
  tx := { busy := false, step := 0, timer := 0, frame := 0, result := 0, op := .emitIdle }
  io := { outLevel := true, inLevel := true, edgeDetect := false,
          disableResult := 0, enableResult := 0 }
  ports := { tickHz := 1000000, now := 0 }
  tick := c.tickReset % 2 ^ c.tickW
  held := []
  inbox := []
  trace := []
  choices := 0

/-- The machine right after power-on, with the default parameters. -/
def State.reset : State := State.resetWith Config.standard

end Sys2Proof.Machine
end

