-- ==== Sys2Proof/Machine/Operands.lean ====
section
/-!
DEFINITION. The operand forms: what an operation reads from a command word, a port or a register
before it acts (R31, R36, R51), and the arithmetic laws of those values (R61, R96).
-/

namespace Sys2Proof.Machine

/-- The ticks of a target of `ns` nanoseconds at `hz` ticks a second: the exact quotient, rounded
up (R61). -/
def ticks (hz ns : Nat) : Nat := (ns * hz + 999999999) / 1000000000

/-- The table `CONFIGURE` derives from the five targets and a tick frequency (R60). -/
def configuredTable (c : Config) (hz : Nat) : TimingTable where
  halfBit := ticks hz c.tHalfNs
  fullBit := ticks hz c.tFullNs
  shortLongBoundary := ticks hz c.tSlNs
  idleThreshold := ticks hz c.tIdleNs
  resetThreshold := ticks hz c.tResetNs

/-- `(a - b) mod 2^w` (R96). -/
def subMod (w a b : Nat) : Nat := (a % 2 ^ w + (2 ^ w - b % 2 ^ w)) % 2 ^ w

/-- The ticks since the last delivered edge, modulo `2^TICK_W` (R80). -/
def elapsed (c : Config) (rx : ReceiverState) (now : Nat) : Nat :=
  subMod c.tickW now rx.lastEdgeTimestamp

/-- The transmit frame of an address and a data byte: the start bit 1, then the two (R33, R47). -/
def txFrame (a d : Byte) : Frame := (1 : BitVec 1) ++ a ++ d

/-- The request of `EMIT_BIT b` (R70). -/
def bitRequest (b : Level) : TxRequest where
  op := .emitBit
  frame := (BitVec.ofBool b).setWidth 17

/-- The request of `EMIT_BYTE v` (R72). -/
def byteRequest (v : Byte) : TxRequest where
  op := .emitByte
  frame := v.setWidth 17

/-- The request of `EMIT_IDLE` (R74). -/
def idleRequest : TxRequest where
  op := .emitIdle
  frame := 0

/-- The request of `TRANSFER a, d` (R100). -/
def transferRequest (a d : Byte) : TxRequest where
  op := .transfer
  frame := txFrame a d

/-- The request of the transmit frame alone (R47). -/
def frameRequest (a d : Byte) : TxRequest where
  op := .frame
  frame := txFrame a d

/-- The `n` low bits of a frame register, bit `n - 1` first (R33). -/
def sentBits (n : Nat) (f : Frame) : List Level := msbBits (f.setWidth n)

/-- `rx.accumulatedBits[15:0]`, the architectural part of the register (R13, R88). -/
def statusBits (rx : ReceiverState) : BitVec 16 := BitVec.ofNat 16 rx.accumulatedBits

end Sys2Proof.Machine
end

