-- ==== Sys2Proof/Machine/Flags.lean ====
section
/-!
DEFINITION. The flag computations (R16): the interval class that selects what an edge does, the
commit decided by the parity of the half-bit count, the frame-ready test, and the clearing read.
-/

namespace Sys2Proof.Machine

/-- The three classes of an interval (R49). -/
inductive IntervalClass where
  | reset
  | long
  | short
  deriving DecidableEq, Repr

/-- The class of an interval, the tests in the order of R49. -/
def classify (tt : TimingTable) (e : Nat) : IntervalClass :=
  if tt.resetThreshold < e then .reset
  else if tt.shortLongBoundary < e then .long
  else .short

/-- Shift the accumulator left by one and put `b` in bit 0, truncated to `ACC_W` bits (R52). -/
def commitBit (c : Config) (b : Level) (acc : Nat) : Nat := (2 * acc + b.toNat) % 2 ^ c.accW

/-- The half-bit count after `n` more half-bits, modulo `2^CNT_W` (R96). -/
def countUp (c : Config) (n count : Nat) : Nat := (count + n) % 2 ^ c.cntW

/-- The body of class RESET (R81). -/
def resetBody (rx : ReceiverState) : ReceiverState :=
  { rx with accumulatedBits := 0, frameReady := false, halfBitCount := 0, lastDecodedBit := true }

/-- The body of class LONG (R82): the bit is complemented, then committed. -/
def longBody (c : Config) (rx : ReceiverState) : ReceiverState :=
  { rx with
    lastDecodedBit := !rx.lastDecodedBit
    accumulatedBits := commitBit c (!rx.lastDecodedBit) rx.accumulatedBits
    halfBitCount := countUp c 2 rx.halfBitCount }

/-- The body of class SHORT (R83): a bit is committed when the new count is odd. -/
def shortBody (c : Config) (rx : ReceiverState) : ReceiverState :=
  { rx with
    halfBitCount := countUp c 1 rx.halfBitCount
    accumulatedBits :=
      if countUp c 1 rx.halfBitCount % 2 = 1 then commitBit c rx.lastDecodedBit rx.accumulatedBits
      else rx.accumulatedBits }

/-- The body of a class. -/
def classBody (c : Config) : IntervalClass → ReceiverState → ReceiverState
  | .reset => resetBody
  | .long => longBody c
  | .short => shortBody c

/-- The frame-ready test, which only sets the flag (R84). -/
def frameReadyTest (rx : ReceiverState) : ReceiverState :=
  if frameReadyCount ≤ rx.halfBitCount then { rx with frameReady := true } else rx

/-- The timestamp update, the last action of every edge (R85). -/
def stampEdge (c : Config) (now : Nat) (rx : ReceiverState) : ReceiverState :=
  { rx with lastEdgeTimestamp := now % 2 ^ c.tickW }

/-- An edge of a given class: the body, the frame-ready test, the timestamp (R80). -/
def edgeOfClass (c : Config) (k : IntervalClass) (now : Nat) (rx : ReceiverState) :
    ReceiverState :=
  stampEdge c now (frameReadyTest (classBody c k rx))

/-- One edge, its class selected by the elapsed time (R80). -/
def edgeStep (c : Config) (tt : TimingTable) (rx : ReceiverState) (now : Nat) : ReceiverState :=
  edgeOfClass c (classify tt (elapsed c rx now)) now rx

/-- The flag after a status read: cleared when `CLEAR_ON_READ` (R88). -/
def readClears (c : Config) (rx : ReceiverState) : ReceiverState :=
  if c.clearOnRead && rx.frameReady then { rx with frameReady := false } else rx

end Sys2Proof.Machine
end

