-- ==== Sys2Proof/Machine/Line.lean ====
section
/-!
DEFINITION. The line code (30_encoding.md, 41_transmitter.md): a transmission as a list of
segments, and the edges of a segment list (R9).
-/

namespace Sys2Proof.Machine

/-- The line is set to `level` and held for `duration` ticks (R9). -/
structure Segment where
  level : Level
  duration : Nat
  deriving DecidableEq, Repr

/-- The two half-bits of one bit: its inverse, then the bit itself (R45, R70). -/
def segBit (tt : TimingTable) (b : Level) : List Segment :=
  [{ level := !b, duration := tt.halfBit }, { level := b, duration := tt.halfBit }]

/-- The half-bits of a list of bits, first bit first (R73). -/
def segBits (tt : TimingTable) (bs : List Level) : List Segment := bs.flatMap (segBit tt)

/-- The idle gap: level 1 for `tt.idleThreshold` ticks (R74). -/
def segIdle (tt : TimingTable) : List Segment := [{ level := true, duration := tt.idleThreshold }]

/-- The edges of a segment list that starts at tick `t` with the line at `l` (R9): each the tick of
a change and the new level. A call that repeats the line's level makes no edge. -/
def edgesOf : List Segment → Nat → Level → List (Nat × Level)
  | [], _, _ => []
  | g :: gs, t, l =>
    if g.level = l then edgesOf gs (t + g.duration) l
    else (t, g.level) :: edgesOf gs (t + g.duration) g.level

/-- How long a segment list lasts (R75). -/
def durationOf (gs : List Segment) : Nat := (gs.map Segment.duration).sum

end Sys2Proof.Machine
end

