-- ==== Sys2Proof/Machine/Ops.lean ====
section
/-!
DEFINITION. The named operations over the state: the register groups, the ports, the four
capability calls (R19, R118), the transmit sequencer (R17, R101), the hold of R106, and the
delivery of an edge to the Receiver (R80). The block has no memory (R30) and takes no exception
(R119), so there is no memory operation and no exception entry; the one asynchronous event, the
edge (R114), is `takeEdge`.
-/

namespace Sys2Proof.Machine

/-- What a step or a meaning answers. -/
abbrev Answer := Host.Outcome State Fault Refusal

namespace State

/-- Write the ReceiverState. -/
def withRx (s : State) (rx : ReceiverState) : State := { s with rx := rx }

/-- Write the transmit sequencer's registers. -/
def withTx (s : State) (tx : TxState) : State := { s with tx := tx }

/-- Write the I/O capability's state. -/
def withIo (s : State) (io : IoState) : State := { s with io := io }

/-- Write the host's ports. -/
def withPorts (s : State) (p : Ports) : State := { s with ports := p }

/-- Fill the TimingTable (R11). -/
def withTable (s : State) (tt : TimingTable) : State := { s with tt := some tt }

/-- Replace the held requests. -/
def withHeld (s : State) (rs : List TxRequest) : State := { s with held := rs }

/-- Replace the inputs still to come. -/
def withInbox (s : State) (as : List Arrival) : State := { s with inbox := as }

/-- One more free value has been drawn. -/
def drawn (s : State) : State := { s with choices := s.choices + 1 }

/-- Show an output at the ports, at the present tick (R25). -/
def emit (s : State) (o : Output) : State := { s with trace := (s.tick, o) :: s.trace }

/-- The TimingTable, without which the operations that read it are refused (R11, R134). -/
def needTable (s : State) (k : TimingTable → Answer) : Answer :=
  match s.tt with
  | some tt => k tt
  | none => .refused .notConfigured

/-! ### The I/O capability (R19, R118) -/

/-- `getInputLevel()`. No rule calls it (R19). -/
def getInputLevel (s : State) : Level := s.io.inLevel

/-- `setOutputLevel(l)`: always takes effect, takes no time (R118). -/
def setOutputLevel (s : State) (l : Level) : State :=
  (s.withIo { s.io with outLevel := l }).emit (.setOutputLevel l)

/-- `disableInputEdgeDetection()` as step 1 of `TRANSFER` calls it: a failure is refused (R102). -/
def disableDetection (s : State) : Answer :=
  if s.io.disableResult = 0 then
    .next ((s.withIo { s.io with edgeDetect := false }).emit (.disableInputEdgeDetection 0))
  else .refused .disableFailed

/-- What `enableInputEdgeDetection()` does to edge detection: on after success, and kept off after
a failure (R112, D17). -/
def enabledIo (io : IoState) : IoState := { io with edgeDetect := decide (io.enableResult = 0) }

/-- `enableInputEdgeDetection()` as step 6 of `TRANSFER` calls it: its code is latched as the
result (R102). -/
def enableDetection (s : State) : State :=
  ((s.withIo (enabledIo s.io)).withTx { s.tx with result := s.io.enableResult }).emit
    (.enableInputEdgeDetection s.io.enableResult)

/-! ### The tick (R20, R117) -/

/-- A tick passes for the input that comes next. -/
def sooner : List Arrival → List Arrival
  | [] => []
  | a :: as => { a with delay := a.delay - 1 } :: as

/-- One tick passes: the counter counts up and wraps, the sequencer's wait and the next input's
delay are one tick shorter. -/
def passTick (s : State) : State :=
  { s with
    tick := (s.tick + 1) % 2 ^ s.cfg.tickW
    tx := { s.tx with timer := s.tx.timer - 1 }
    inbox := sooner s.inbox }

end State

/-! ### The transmit sequencer -/

/-- What one element of a schedule does when it is entered (R101). -/
inductive Action where
  | disable
  | drive (level : Level)
  | enable
  deriving DecidableEq, Repr

/-- An element of a schedule: its action, and the ticks it then waits (R101). -/
structure Element where
  action : Action
  wait : Nat
  deriving DecidableEq, Repr

/-- The elements that drive a segment list. -/
def driveAll (gs : List Segment) : List Element :=
  gs.map fun g => { action := .drive g.level, wait := g.duration }

/-- The segments an operation sends: the bits of its operand (R70, R72, R73), the idle gap (R74),
or the frame of R47. -/
def segmentsOf (tt : TimingTable) (r : TxRequest) : List Segment :=
  match r.op with
  | .emitBit => segBits tt (sentBits 1 r.frame)
  | .emitByte => segBits tt (sentBits 8 r.frame)
  | .emitIdle => segIdle tt
  | .transfer | .frame => segBits tt (sentBits 17 r.frame) ++ segIdle tt

/-- The schedule of an operation: its segments, and for `TRANSFER` the bracket of R101 around
them. -/
def scheduleOf (tt : TimingTable) (r : TxRequest) : List Element :=
  match r.op with
  | .transfer =>
    { action := .disable, wait := 0 } ::
      (driveAll (segmentsOf tt r) ++ [{ action := .enable, wait := 0 }])
  | .emitBit | .emitByte | .emitIdle | .frame => driveAll (segmentsOf tt r)

namespace State

/-- The request in progress. -/
def request (s : State) : TxRequest := { op := s.tx.op, frame := s.tx.frame }

/-- Make the call of an element. -/
def act (s : State) : Action → Answer
  | .disable => s.disableDetection
  | .drive l => .next (s.setOutputLevel l)
  | .enable => .next s.enableDetection

/-- The operation in progress ends: the sequencer is free, and a `TRANSFER` returns its result
(R18, R100). -/
def finish (s : State) : State :=
  let free := s.withTx { s.tx with busy := false, step := 0, timer := 0 }
  if s.tx.op = .transfer then free.emit (.result s.tx.result) else free

/-- Enter element `k` of the schedule in progress: its call is made now and its wait begins. Past
the last element the operation ends. -/
def enterElement (s : State) (tt : TimingTable) (k : Nat) : Answer :=
  match (scheduleOf tt s.request)[k]? with
  | some e => (s.withTx { s.tx with step := k, timer := e.wait }).act e.action
  | none => .next s.finish

/-- The sequencer takes a request and enters its first element (R76, R100). -/
def begin (s : State) (tt : TimingTable) (r : TxRequest) : Answer :=
  (s.withTx { s.tx with busy := true, op := r.op, frame := r.frame }).enterElement tt 0

/-- A request of the host: taken at once when the sequencer is free and no other request waits,
held otherwise (R106). -/
def submit (s : State) (r : TxRequest) : Answer :=
  s.needTable fun tt =>
    if s.tx.busy || !s.held.isEmpty then .next (s.withHeld (s.held ++ [r])) else s.begin tt r

/-- The sequencer is free and requests are held: which one starts, or that none does and the machine
goes on `otherwise`, is a free value (R106, U16, log entry 12). -/
def serveHeld (s : State) (otherwise : State → Answer) : Answer :=
  let k := Config.freeChoice s.choices % (s.held.length + 1)
  match s.held[k]? with
  | some r => s.drawn.needTable fun tt => (s.drawn.withHeld (s.held.eraseIdx k)).begin tt r
  | none => otherwise s.drawn

/-! ### The Receiver -/

/-- An edge of class `k` is delivered, with the timestamp on the edge-event port (R80). -/
def takeEdge (s : State) (k : IntervalClass) : State :=
  s.withRx (edgeOfClass s.cfg k s.ports.now s.rx)

/-- The class the edge on the port has (R49). -/
def edgeClass (s : State) (tt : TimingTable) : IntervalClass :=
  classify tt (elapsed s.cfg s.rx s.ports.now)

/-- An edge that must be of class `k`: the selector of the interval-class rows (R53). DESIGN CHOICE:
the row is refused where its selector does not hold (log entry 9). -/
def takeEdgeIf (s : State) (k : IntervalClass) : Answer :=
  s.needTable fun tt =>
    if s.edgeClass tt = k then .next (s.takeEdge k) else .refused .classNotSelected

/-- Edges are delivered at each of the given timestamps in turn. -/
def takeEdges (s : State) (tt : TimingTable) (nows : List Nat) : State :=
  s.withRx (nows.foldl (edgeStep s.cfg tt) s.rx)

end State

/-- The timestamps of the edges of a 9-bit frame `1 ++ d` sent from an idle line at tick `t`, up
to the mid-bit edge of its last bit (R48, R90). -/
def frameEdges (tt : TimingTable) (d : Byte) (t : Nat) : List Nat :=
  (edgesOf (segBits tt (true :: msbBits d)) t true).map Prod.fst

end Sys2Proof.Machine
end

