-- ==== Sys2Proof/Machine/Configurator.lean ====
section
/-!
DEFINITION. Operation family 1: `CONFIGURE` (40_timing_config.md).
-/

namespace Sys2Proof.Machine

/-- `CONFIGURE` (R60): a second one is refused, a zero frequency is refused, and otherwise the
table is derived from the targets and the frequency on the configure port. -/
def execConfigure (s : State) : Answer :=
  match s.tt with
  | some _ => .refused .secondConfigure
  | none =>
    if s.ports.tickHz = 0 then .refused .zeroTickFrequency
    else .next (s.withTable (configuredTable s.cfg s.ports.tickHz))

end Sys2Proof.Machine
end

