-- ==== Sys2Proof/Machine/Formats.lean ====
section
/-!
DEFINITION. The line symbols and frame formats of the opcode table (30_encoding.md). They are
encodings of the line, not commands of the host (R53). DESIGN CHOICE (log entry 16): as an
operation, a transmit format is what the Transmitter does to put it on the line, outside the
bracket of `TRANSFER`, and the receive format is what the Receiver does when that frame arrives on
the ideal channel from an idle line.
-/

namespace Sys2Proof.Machine

/-- `SYM_BIT0`: level 1, then level 0 (R45). -/
def execSymBit0 (s : State) : Answer := s.submit (bitRequest false)

/-- `SYM_BIT1`: level 0, then level 1 (R45). -/
def execSymBit1 (s : State) : Answer := s.submit (bitRequest true)

/-- `SYM_IDLE`: level 1 for `tt.idleThreshold` ticks (R74). -/
def execSymIdle (s : State) : Answer := s.submit idleRequest

/-- `FRAME_TX`: the start bit, the address byte, the data byte and the idle gap (R47). -/
def execFrameTx (a d : Byte) (s : State) : Answer := s.submit (frameRequest a d)

/-- `FRAME_RX`: the edges of the frame `1 ++ d`, the first at the timestamp on the edge-event
port, up to the one at which the frame is ready (R48, R90). -/
def execFrameRx (d : Byte) (s : State) : Answer :=
  s.needTable fun tt => .next (s.takeEdges tt (frameEdges tt d s.ports.now))

end Sys2Proof.Machine
end

