-- ==== Sys2Proof/Machine/Orchestrator.lean ====
section
/-!
DEFINITION. Operation family 4: `TRANSFER` (43_transfer.md), and the reserved operation code.
-/

namespace Sys2Proof.Machine

/-- `TRANSFER a, d` (R100): leaves the hold of R106 if it may, and disables edge detection. The
rest of its schedule (R101) is the transmit agent's (Machine/Agents.lean). -/
def execTransfer (a d : Byte) (s : State) : Answer := s.submit (transferRequest a d)

/-- Operation code 111: refused, no state changes (R56). -/
def execReserved111 (_ : State) : Answer := .refused .reservedOpcode

end Sys2Proof.Machine
end

