-- ==== Sys2Proof/Machine/Receiver.lean ====
section
/-!
DEFINITION. Operation family 3: `ON_EDGE` with its three interval classes, and `READ_STATUS`
(42_receiver.md).
-/

namespace Sys2Proof.Machine

/-- `ON_EDGE`, with the timestamp on the edge-event port (R80). -/
def execOnEdge (s : State) : Answer :=
  s.needTable fun tt => .next (s.takeEdge (s.edgeClass tt))

/-- `ON_EDGE.RESET` (R81). -/
def execOnEdgeReset (s : State) : Answer := s.takeEdgeIf .reset

/-- `ON_EDGE.LONG` (R82). -/
def execOnEdgeLong (s : State) : Answer := s.takeEdgeIf .long

/-- `ON_EDGE.SHORT` (R83). -/
def execOnEdgeShort (s : State) : Answer := s.takeEdgeIf .short

/-- `READ_STATUS`: both fields of one state on the status port, and the flag cleared if
`CLEAR_ON_READ` (R88). -/
def execReadStatus (s : State) : Answer :=
  .next ((s.withRx (readClears s.cfg s.rx)).emit (.status s.rx.frameReady (statusBits s.rx)))

end Sys2Proof.Machine
end

