-- ==== Sys2Proof/Machine/Transmitter.lean ====
section
/-!
DEFINITION. Operation family 2: `EMIT_BIT`, `EMIT_BYTE`, `EMIT_IDLE` (41_transmitter.md). Each
starts the sequencer on its segment list; the waits and the later calls are the transmit agent's
steps (Machine/Agents.lean).
-/

namespace Sys2Proof.Machine

/-- `EMIT_BIT b` (R70). -/
def execEmitBit (b : Level) (s : State) : Answer := s.submit (bitRequest b)

/-- `EMIT_BYTE v` (R72). -/
def execEmitByte (v : Byte) (s : State) : Answer := s.submit (byteRequest v)

/-- `EMIT_IDLE` (R74). -/
def execEmitIdle (s : State) : Answer := s.submit idleRequest

end Sys2Proof.Machine
end

