-- ==== Sys2Proof/Machine/Dispatch.lean ====
section
/-!
DEFINITION. Dispatch: one arm per operation, each one call of its meaning.
-/

namespace Sys2Proof.Machine

def exec (i : Instr) (s : State) : Host.Outcome State Fault Refusal :=
  match i with
  | .configure => Sys2Proof.Machine.execConfigure s
  | .emitBit b => Sys2Proof.Machine.execEmitBit b s
  | .emitByte v => Sys2Proof.Machine.execEmitByte v s
  | .emitIdle => Sys2Proof.Machine.execEmitIdle s
  | .transfer a d => Sys2Proof.Machine.execTransfer a d s
  | .onEdge => Sys2Proof.Machine.execOnEdge s
  | .onEdgeReset => Sys2Proof.Machine.execOnEdgeReset s
  | .onEdgeLong => Sys2Proof.Machine.execOnEdgeLong s
  | .onEdgeShort => Sys2Proof.Machine.execOnEdgeShort s
  | .readStatus => Sys2Proof.Machine.execReadStatus s
  | .reserved111 => Sys2Proof.Machine.execReserved111 s
  | .symBit0 => Sys2Proof.Machine.execSymBit0 s
  | .symBit1 => Sys2Proof.Machine.execSymBit1 s
  | .symIdle => Sys2Proof.Machine.execSymIdle s
  | .frameTx a d => Sys2Proof.Machine.execFrameTx a d s
  | .frameRx d => Sys2Proof.Machine.execFrameRx d s

end Sys2Proof.Machine
end

