-- ==== Sys2Proof/WellFormed.lean ====
section
/-!
DEFINITION. Which operations have an encoding of their own. Every operand value is legal (R55), so
the only checks are on the row: an interval class of `ON_EDGE` is selected by the elapsed time and
by no command bit (R53), and the operation code 111 is reserved (R56).
-/

namespace Sys2Proof

/-- Check 1: the row is not one of the three interval classes, which no bits select (R53). -/
def Instr.hasOwnBits : Instr → Bool
  | .onEdgeReset | .onEdgeLong | .onEdgeShort => false
  | _ => true

/-- Check 2: the row is not the reserved code (R56). -/
def Instr.notReserved : Instr → Bool
  | .reserved111 => false
  | _ => true

/-- An operation with an encoding of its own and a meaning. -/
def Instr.wellFormed (i : Instr) : Bool := i.hasOwnBits && i.notReserved

/-- The operations that deliver edges to the Receiver, which edge detection gates (R21, R23). -/
def Instr.isEdgeEvent : Instr → Bool
  | .onEdge | .onEdgeReset | .onEdgeLong | .onEdgeShort | .frameRx _ => true
  | _ => false

end Sys2Proof
end

