-- ==== Sys2Proof/Machine/Agents.lean ====
section
/-!
DEFINITION. Who moves (R38): an input that is due is delivered; otherwise the transmit agent makes
its next call, or serves a held request, or a tick passes. One step is one such move.
-/

namespace Sys2Proof.Machine

namespace State

/-- Edge detection is off, so an edge is dropped, then and later (R23, R114). Before `CONFIGURE`
the edge is not dropped but refused, as R134 asks of every `ON_EDGE` (log entry 10). -/
def dropsEdges (s : State) : Bool := s.tt.isSome && !s.io.edgeDetect

/-- A decoded operation is delivered. -/
def deliverInstr (s : State) (i : Instr) : Answer :=
  if i.isEdgeEvent && s.dropsEdges then .next s else exec i s

/-- What the host or the environment presents is decoded and delivered. -/
def deliverEncoding (s : State) (e : Encoding) : Answer :=
  match decode e with
  | .ok i => s.deliverInstr i
  | .error why => .refused (.undecodable why)

/-- The input line is driven to a level. A change is an edge, delivered with the present tick as
its timestamp (R114, R115). DESIGN CHOICE: no latency, log entry 19 (D19). -/
def deliverLevel (s : State) (l : Level) : Answer :=
  if s.io.inLevel = l then .next s
  else
    let moved := s.withIo { s.io with inLevel := l }
    if s.io.edgeDetect then exec .onEdge (moved.withPorts { s.ports with now := s.tick })
    else .next moved

/-- The host itself disables edge detection (R114). A disable that reports a failure leaves it as it
was, on until a successful disable and off until a successful enable (R118, log entry 13). -/
def hostDisable (s : State) : State :=
  if s.io.disableResult = 0 then s.withIo { s.io with edgeDetect := false } else s

/-- A code on the `RESULT_W`-bit result wires of the capability (R31, D17). -/
def resultCode (c : Config) (r : Int) : Int := r.bmod (2 ^ c.resultW)

/-- An input arrives. DESIGN CHOICE (log entry 31): the host's own enable and disable are taken at
any tick, also between steps 1 and 6 of a `TRANSFER`, where they lift or restore the mask of the
bracket; R21, R112 and R114 name them only at initialisation and after a failed enable. -/
def deliver (s : State) : Input → Answer
  | .command w => s.deliverEncoding (.command w)
  | .line bits => s.deliverEncoding (.line bits)
  | .configurePort hz => .next (s.withPorts { s.ports with tickHz := hz })
  | .edgePort now => .next (s.withPorts { s.ports with now := now % 2 ^ s.cfg.tickW })
  | .lineIn l => s.deliverLevel l
  | .hostEnable => .next (s.withIo (enabledIo s.io))
  | .hostDisable => .next s.hostDisable
  | .capabilityCodes d e =>
    .next (s.withIo { s.io with disableResult := resultCode s.cfg d,
                                enableResult := resultCode s.cfg e })

/-- The transmit agent's move when it is busy: the wait goes on for a tick, or the next element is
entered, which takes no time (R101, D9). -/
def sequencerMove (s : State) : Answer :=
  if s.tx.timer = 0 then s.needTable fun tt => s.enterElement tt (s.tx.step + 1)
  else .next s.passTick

/-- No input is due: the transmit agent moves, or a tick passes. -/
def advance (s : State) : Answer :=
  if s.tx.busy then s.sequencerMove
  else if s.held.isEmpty then .next s.passTick
  else s.serveHeld fun u => .next u.passTick

/-- The transmit agent can still act at this tick: a call is to be made, or a held request can
start. -/
def mayAct (s : State) : Bool := if s.tx.busy then s.tx.timer == 0 else !s.held.isEmpty

/-- The next input is due: its tick has come, and it leaves the precedence to no act of the transmit
agent that can still come at this tick. DESIGN CHOICE (log entry 15): the spec gives no order
between the two, so the order is part of the input. -/
def isDue (s : State) (a : Arrival) : Bool := a.delay == 0 && !(a.afterCalls && s.mayAct)

/-- One move of the block and its environment: an input that is due, or the transmit agent, or a
tick. An input that waits at its tick for held requests arrives at that tick when none starts. -/
def move (s : State) : Answer :=
  match s.inbox with
  | [] => s.advance
  | a :: as =>
    if s.isDue a then (s.withInbox as).deliver a.input
    else if a.delay = 0 ∧ s.tx.busy = false then
      s.serveHeld fun u => (u.withInbox as).deliver a.input
    else s.advance

/-- An encoding as an input. -/
def inputOf : Encoding → Input
  | .command w => .command w
  | .line bits => .line bits

/-- Whether an encoding delivers edges. -/
def deliversEdges (e : Encoding) : Bool :=
  match decode e with
  | .ok i => i.isEdgeEvent
  | .error _ => false

/-- An encoding is presented so that the next step runs it: it is the next input and due, and edge
detection is on if it delivers edges (log entry 18). -/
def present (s : State) (e : Encoding) : State :=
  (s.withInbox ({ delay := 0, input := inputOf e } :: s.inbox)).withIo
    { s.io with edgeDetect := s.io.edgeDetect || deliversEdges e }

end State

end Sys2Proof.Machine
end

