-- ==== Sys2Proof/Machine/Step.lean ====
section
/-!
DEFINITION. The step, and how an instruction of the opcode table is put where the step takes it.
-/

namespace Sys2Proof.Machine

/-- One step: one move of one agent (Machine/Agents.lean). -/
def step (s : State) : Host.Outcome State Fault Refusal := s.move

/-- `s` with the instruction of the opcode table whose bits are `w` presented as its next input. -/
def State.withFetchWord (s : State) (nbits w : Nat) : State := s.present (tableEncoding nbits w)

end Sys2Proof.Machine
end

