-- ==== Sys2Proof/Safety.lean ====
section
/-!
DEFINITION. What the claims speak of: the predicates of the spec on tables (R12, R92), the
receive step as R86 writes it, the premises of R90 and R137, the invariants of the state (R15,
R17), and what a run of the transmit agent leaves.
-/

namespace Sys2Proof.Machine

/-- `WF(tt)` (R12). -/
abbrev TimingTable.WF (tt : TimingTable) : Prop :=
  0 < tt.halfBit ∧ tt.halfBit < tt.shortLongBoundary ∧ tt.shortLongBoundary < tt.idleThreshold ∧
    tt.idleThreshold ≤ tt.resetThreshold

/-- `RT(tt)`, the round-trip predicate (R92). -/
abbrev TimingTable.RT (tt : TimingTable) : Prop :=
  0 < tt.halfBit ∧ tt.halfBit ≤ tt.shortLongBoundary ∧ tt.shortLongBoundary < 2 * tt.halfBit ∧
    2 * tt.halfBit ≤ tt.resetThreshold

/-- `(now - last) mod 2^TICK_W` over the integers, as R80 and R86 write it. -/
def modularGap (c : Config) (last now : Nat) : Nat :=
  (((now : Int) - (last : Int)) % ((2 ^ c.tickW : Nat) : Int)).toNat

/-- The receive step as the one pure function of R86. -/
def onEdgePure (c : Config) (tt : TimingTable) (rx : ReceiverState) (now : Nat) : ReceiverState :=
  let e := modularGap c rx.lastEdgeTimestamp now
  let bit : Nat := if rx.lastDecodedBit then 1 else 0
  let body : Nat × Nat × Nat × Bool :=
    if e > tt.resetThreshold then (0, 0, 1, false)
    else if e > tt.shortLongBoundary then
      let nb := 1 - bit
      ((2 * rx.accumulatedBits + nb) % 2 ^ c.accW, (rx.halfBitCount + 2) % 2 ^ c.cntW, nb,
        rx.frameReady)
    else
      let n := (rx.halfBitCount + 1) % 2 ^ c.cntW
      if n % 2 = 1 then ((2 * rx.accumulatedBits + bit) % 2 ^ c.accW, n, bit, rx.frameReady)
      else (rx.accumulatedBits, n, bit, rx.frameReady)
  { lastEdgeTimestamp := now % 2 ^ c.tickW
    accumulatedBits := body.1
    halfBitCount := body.2.1
    lastDecodedBit := body.2.2.1 == 1
    frameReady := body.2.2.2 || decide (17 ≤ body.2.1) }

/-- `FirstEdgeResets`: an edge at `now` is classed RESET (R137). -/
abbrev FirstEdgeResets (c : Config) (tt : TimingTable) (rx : ReceiverState) (now : Nat) : Prop :=
  tt.resetThreshold < modularGap c rx.lastEdgeTimestamp now

/-- The ReceiverState after edges at each of `nows` in turn. -/
def receive (c : Config) (tt : TimingTable) (rx : ReceiverState) (nows : List Nat) :
    ReceiverState :=
  nows.foldl (edgeStep c tt) rx

/-- The ticks of the edges of a segment list sent from an idle line. -/
def edgeTicks (gs : List Segment) (t : Nat) : List Nat := (edgesOf gs t true).map Prod.fst

/-- One edge of a receiver beside the list of the bits committed since the last RESET class, the
first one first, as R15 (c) counts them: a LONG step commits one, a SHORT step one when the new
count is odd, RESET starts the list again. The committed bit is the bit after the step (R15 (d)). -/
def committedEdge (c : Config) (tt : TimingTable) (p : ReceiverState × List Level) (now : Nat) :
    ReceiverState × List Level :=
  let next := edgeStep c tt p.1 now
  match classify tt (elapsed c p.1 now) with
  | .reset => (next, [])
  | .long => (next, p.2 ++ [next.lastDecodedBit])
  | .short =>
    (next, if next.halfBitCount % 2 = 1 then p.2 ++ [next.lastDecodedBit] else p.2)

/-- The invariants of the ReceiverState that R15 derives, with the bound on the register that the
number of commits gives. -/
abbrev ReceiverState.Consistent (rx : ReceiverState) : Prop :=
  (rx.frameReady = true ↔ 17 ≤ rx.halfBitCount) ∧
    rx.accumulatedBits < 2 ^ ((rx.halfBitCount + 1) / 2) ∧
    (1 ≤ rx.halfBitCount → rx.accumulatedBits % 2 = rx.lastDecodedBit.toNat) ∧
    (rx.halfBitCount = 0 → rx.lastDecodedBit = true)

/-- A result code fits `RESULT_W` signed bits (D17). -/
abbrev CodeFits (c : Config) (r : Int) : Prop :=
  -(2 ^ (c.resultW - 1) : Int) ≤ r ∧ r < (2 ^ (c.resultW - 1) : Int)

/-- The longest wait of a table: the range of `tx.timer` (R17). -/
def TimingTable.longestWait (tt : TimingTable) : Nat := max tt.halfBit tt.idleThreshold

/-- Every register is in its range (R13, R17, R20), the sequencer at rest stands at 0, and nothing
is sent or held before `CONFIGURE` (R134). -/
structure State.InRange (s : State) : Prop where
  params : s.cfg.Admissible
  timestamp : s.rx.lastEdgeTimestamp < 2 ^ s.cfg.tickW
  accumulator : s.rx.accumulatedBits < 2 ^ s.cfg.accW
  count : s.rx.halfBitCount < 2 ^ s.cfg.cntW
  tick : s.tick < 2 ^ s.cfg.tickW
  now : s.ports.now < 2 ^ s.cfg.tickW
  stepRange : s.tx.step ≤ 36
  timerRange : ∀ tt, s.tt = some tt → s.tx.timer ≤ tt.longestWait
  atRest : s.tx.busy = false → s.tx.step = 0 ∧ s.tx.timer = 0
  configured : s.tt = none → s.tx.busy = false ∧ s.held = []
  result : CodeFits s.cfg s.tx.result
  disableCode : CodeFits s.cfg s.io.disableResult
  enableCode : CodeFits s.cfg s.io.enableResult

/-- The input `a` is due: its tick has come, and if it leaves the precedence to the transmit agent,
no call is to be made at this tick and no held request can start. -/
abbrev State.Due (s : State) (a : Arrival) : Prop :=
  a.delay = 0 ∧ (a.afterCalls = true →
    (s.tx.busy = true → 0 < s.tx.timer) ∧ (s.tx.busy = false → s.held = []))

/-- Before `CONFIGURE` the Receiver reads as at power-on: no flag, and nothing in the register. -/
abbrev State.ClearUntilConfigured (s : State) : Prop :=
  s.tt = none → s.rx.frameReady = false ∧ s.rx.accumulatedBits = 0

/-- The sequencer is free and no request waits. -/
abbrev State.Free (s : State) : Prop := s.tx.busy = false ∧ s.held = []

/-- The step takes exactly one held request, one occurrence of it, and makes the first call of its
schedule: the first level of its segments, or the disable of a `TRANSFER`, whose failure is refused
(R101, R102, R106). -/
def State.StartsHeld (s : State) (tt : TimingTable) : Prop :=
  ∃ k r, s.held[k]? = some r ∧
    (r.op ≠ .transfer → ∃ l w, (segmentsOf tt r).head? = some { level := l, duration := w } ∧
      step s = .next
        { s with
          tx := { s.tx with busy := true, step := 0, timer := w, frame := r.frame, op := r.op }
          io := { s.io with outLevel := l }
          held := s.held.eraseIdx k
          trace := (s.tick, .setOutputLevel l) :: s.trace
          choices := s.choices + 1 }) ∧
    (r.op = .transfer → s.io.disableResult = 0 → step s = .next
        { s with
          tx := { s.tx with busy := true, step := 0, timer := 0, frame := r.frame, op := r.op }
          io := { s.io with edgeDetect := false }
          held := s.held.eraseIdx k
          trace := (s.tick, .disableInputEdgeDetection 0) :: s.trace
          choices := s.choices + 1 }) ∧
    (r.op = .transfer → s.io.disableResult ≠ 0 → step s = .refused .disableFailed)

/-- The ticks a transmission still takes: what is left of the present wait, and the waits of the
elements still to be entered. -/
def State.ticksLeft (s : State) (tt : TimingTable) : Nat :=
  s.tx.timer + (((scheduleOf tt s.request).drop (s.tx.step + 1)).map Element.wait).sum

/-- The `setOutputLevel` calls of a segment list that starts at tick `t` of a `w`-bit counter, in
the order they are made (R75). -/
def callsOf (w : Nat) : List Segment → Nat → List (Nat × Output)
  | [], _ => []
  | g :: gs, t => (t % 2 ^ w, .setOutputLevel g.level) :: callsOf w gs (t + g.duration)

/-- The level the line has after a segment list that started with it at `l`. -/
def levelAfter (gs : List Segment) (l : Level) : Level := (gs.map Segment.level).getLastD l

/-- The state after a stand-alone transmission of `gs` with the request `r`, started at `s` and
undisturbed: the line, the calls made, the tick, and the sequencer free again. -/
def State.afterSending (s : State) (r : TxRequest) (gs : List Segment) : State :=
  { s with
    tick := (s.tick + durationOf gs) % 2 ^ s.cfg.tickW
    tx := { s.tx with busy := false, step := 0, timer := 0, frame := r.frame, op := r.op }
    io := { s.io with outLevel := levelAfter gs s.io.outLevel }
    trace := (callsOf s.cfg.tickW gs s.tick).reverse ++ s.trace }

/-- Half-bit slot `k` of the transmit frame `1 ++ a ++ d` (R47): the inverse of frame bit
`16 - k div 2` if `k` is even, that bit if `k` is odd. -/
def frameSlot (a d : Byte) (k : Nat) : Level :=
  let bit := ((1 : BitVec 1) ++ a ++ d).getLsbD (16 - k / 2)
  if k % 2 = 0 then !bit else bit

/-- The outputs of a `TRANSFER a, d` that leaves its hold at tick `t` of a `w`-bit counter, in the
order they are made, with `code` the enable's code: the table of R101. -/
def transferOutputs (w : Nat) (tt : TimingTable) (a d : Byte) (t : Nat) (code : Int) :
    List (Nat × Output) :=
  [(t % 2 ^ w, .disableInputEdgeDetection 0)] ++
    (List.range 34).map (fun k =>
      ((t + k * tt.halfBit) % 2 ^ w, .setOutputLevel (frameSlot a d k))) ++
    [((t + 34 * tt.halfBit) % 2 ^ w, .setOutputLevel true),
     ((t + 34 * tt.halfBit + tt.idleThreshold) % 2 ^ w, .enableInputEdgeDetection code),
     ((t + 34 * tt.halfBit + tt.idleThreshold) % 2 ^ w, .result code)]

/-- The machine run for `n` steps. -/
def runSteps (n : Nat) (s : State) : Answer := Host.Core.run Sys2Proof.core n s

/-- A safe run: `n` steps, none of which is refused. -/
def SafeFor (n : Nat) (s : State) : Prop := ∃ t, runSteps n s = .next t

end Sys2Proof.Machine
end

