-- ==== Sys2Proof/Certificates/Slice0/Obligations.lean ====
section
/-!
DEFINITION. The statements for the provers, family by family of the opcode table. Each docstring
names the rule or the section of the spec it formalises, and the log entry of a convention of the
model it rests on.
-/

open Sys2Proof Sys2Proof.Machine

/-! ### Encodings -/

/-- 30_encoding.md section 5 and R45, R47, R48: for every well-formed operation, with every operand
value, the decoder reads back what the encoder wrote. -/
def Obligations.DecodeEncodeAgree : Prop :=
  ∀ i : Instr, i.wellFormed = true → decode (encode i) = .ok i

/-- The converse: an encoding that decodes at all decodes as the canonical encoding of what it
decodes to, so an encoding differs from the canonical one only in the ignored bits of R53 (D12). -/
def Obligations.EncodingsAreCanonicalUpToIgnoredBits : Prop :=
  ∀ (e : Encoding) (i : Instr), decode e = .ok i →
    i.hasOwnBits = true ∧ decode (encode i) = .ok i ∧
      (∀ bits, e = .line bits → encode i = .line bits) ∧
      (∀ w, e = .command w → ∃ v : CmdWord, encode i = .command v ∧
        v.extractLsb' 16 3 = w.extractLsb' 16 3)

/-- R53: the words of 95_test_vectors.md section 0 and the symbols and frames of R45, R47, R48,
R74, written out, decode to the operations they stand for. -/
def Obligations.WrittenOutWordsDecode : Prop :=
  decode (.command 0x00000) = .ok .configure ∧
  decode (.command 0x10000) = .ok (.emitBit false) ∧
  decode (.command 0x10001) = .ok (.emitBit true) ∧
  decode (.command 0x200A5) = .ok (.emitByte 0xA5) ∧
  decode (.command 0x30000) = .ok .emitIdle ∧
  decode (.command 0x4A53C) = .ok (.transfer 0xA5 0x3C) ∧
  decode (.command 0x401FF) = .ok (.transfer 0x01 0xFF) ∧
  decode (.command 0x50000) = .ok .onEdge ∧
  decode (.command 0x60000) = .ok .readStatus ∧
  decode (.line [true, false]) = .ok .symBit0 ∧
  decode (.line [false, true]) = .ok .symBit1 ∧
  decode (.line [true]) = .ok .symIdle ∧
  decode (.line [true, true, false, true, false, false, true, false, true]) =
    .ok (.frameRx 0xA5) ∧
  decode (.line [true, true, false, true, false, false, true, false, true,
    false, false, true, true, true, true, false, false]) = .ok (.frameTx 0xA5 0x3C)

/-- R56: every command word with `op = 111` is refused, and no state results. -/
def Obligations.ReservedCodeRefused : Prop :=
  ∀ (s : State) (w : CmdWord), w.extractLsb' 16 3 = 0b111 →
    decode (.command w) = .ok .reserved111 ∧
    exec .reserved111 s = .refused .reservedOpcode ∧
    step (s.present (.command w)) = .refused .reservedOpcode

/-- 30_encoding.md sections 1 and 2: the pairs `00` and `11` are not symbols, and a frame without its
start bit is no frame. The model's choice: that no other length is a format of its own input `line`
(log entry 16), and that a presented bit string that is no format is refused by name (log entry
29); the Receiver itself refuses no edge. -/
def Obligations.NonFormatsRefused : Prop :=
  (∀ b : Level, decode (.line [b, b]) = .error .notASymbol) ∧
  (∀ bs : List Level, bs.length = 8 ∨ bs.length = 16 →
    decode (.line (false :: bs)) = .error .noStartBit) ∧
  (∀ bs : List Level, bs.length ∉ [1, 2, 9, 17] → decode (.line bs) = .error .noSuchFormat) ∧
  (∀ (s : State) (bs : List Level) (r : Reject), decode (.line bs) = .error r →
    step (s.present (.line bs)) = .refused (.undecodable r))

/-! ### The step -/

/-- 20_memory.md section 5, 10_state.md section 4: when the next input is due and decodes to a
well-formed operation `i`, the step is `exec i` on the state with that input taken; the one
exception is an edge while edge detection is off, which is dropped (R23, log entry 10). -/
def Obligations.StepRunsDecodedOperation : Prop :=
  ∀ (s : State) (e : Encoding) (i : Instr) (a : Arrival) (rest : List Arrival),
    s.inbox = a :: rest → s.Due a → a.input = State.inputOf e →
    decode e = .ok i → i.wellFormed = true →
    step s =
      if i.isEdgeEvent = true ∧ s.tt ≠ none ∧ s.io.edgeDetect = false
      then .next { s with inbox := rest }
      else exec i { s with inbox := rest }

/-- 20_memory.md section 5, 41_transmitter.md (blocking and time): when no input is due and no call
is to be made, a step is one tick: the counter counts up and wraps, the present wait and the next
input's delay are one tick shorter, and nothing else changes. -/
def Obligations.TimePassesWhenNothingIsDue : Prop :=
  ∀ s : State, (∀ a rest, s.inbox = a :: rest → 0 < a.delay) →
    (s.tx.busy = true → 0 < s.tx.timer) → (s.tx.busy = false → s.held = []) →
    step s = .next
      { s with
        tick := (s.tick + 1) % 2 ^ s.cfg.tickW
        tx := { s.tx with timer := s.tx.timer - 1 }
        inbox := match s.inbox with
          | [] => []
          | a :: rest => { a with delay := a.delay - 1 } :: rest }

/-- 10_state.md section 3, 43_transfer.md (the schedule): when the present wait is over and no input
is due, a step enters the next element of the schedule and makes its call, which takes no time; and
past the last element the sequencer is free again, and a `TRANSFER` returns its result. That an
input due at the same tick may go before or after is log entry 15. -/
def Obligations.CallsAreMadeInOrder : Prop :=
  ∀ (s : State) (tt : TimingTable), s.tt = some tt → s.tx.busy = true → s.tx.timer = 0 →
    (∀ a rest, s.inbox = a :: rest → ¬ s.Due a) →
    let next := (scheduleOf tt s.request)[s.tx.step + 1]?
    (∀ l w, next = some ⟨.drive l, w⟩ → step s = .next
      { s with
        tx := { s.tx with step := s.tx.step + 1, timer := w }
        io := { s.io with outLevel := l }
        trace := (s.tick, .setOutputLevel l) :: s.trace }) ∧
    (∀ w, next = some ⟨.enable, w⟩ → step s = .next
      { s with
        tx := { s.tx with step := s.tx.step + 1, timer := w, result := s.io.enableResult }
        io := { s.io with edgeDetect := decide (s.io.enableResult = 0) }
        trace := (s.tick, .enableInputEdgeDetection s.io.enableResult) :: s.trace }) ∧
    (next = none → step s = .next
      { s with
        tx := { s.tx with busy := false, step := 0, timer := 0 }
        trace :=
          if s.tx.op = .transfer then (s.tick, .result s.tx.result) :: s.trace else s.trace })

/-! ### Power-on -/

/-- 10_state.md section 5, 70_reset_and_hazards.md section 1: what the spec gives at power-on, for
every choice of the open parameters; `rx.lastEdgeTimestamp` is whatever `LAST_EDGE_RESET` is. -/
def Obligations.PowerOnValues : Prop :=
  (∀ c : Config,
    (State.resetWith c).tt = none ∧
    (State.resetWith c).rx.accumulatedBits = 0 ∧
    (State.resetWith c).rx.halfBitCount = 0 ∧
    (State.resetWith c).rx.frameReady = false ∧
    (State.resetWith c).rx.lastDecodedBit = true ∧
    (State.resetWith c).tx.busy = false ∧
    (State.resetWith c).tx.step = 0 ∧
    (State.resetWith c).tx.timer = 0 ∧
    (State.resetWith c).tx.frame = 0 ∧
    (State.resetWith c).tx.result = 0 ∧
    (State.resetWith c).io.outLevel = true ∧
    (State.resetWith c).io.edgeDetect = false ∧
    (∀ v, v < 2 ^ c.tickW →
      (State.resetWith { c with lastEdgeReset := v }).rx.lastEdgeTimestamp = v)) ∧
  State.reset = State.resetWith Config.standard

/-- R134: before `CONFIGURE` every operation that reads the table is refused, `ON_EDGE` in each of
its rows; `READ_STATUS` is allowed and returns `(false, 0)`: it does so wherever the Receiver reads
as at power-on, which is so at power-on and stays so in every step until `CONFIGURE`. -/
def Obligations.UseBeforeConfigureRefused : Prop :=
  (∀ (s : State) (i : Instr), s.tt = none →
    ((∃ b, i = .emitBit b) ∨ (∃ v, i = .emitByte v) ∨ i = .emitIdle ∨ (∃ a d, i = .transfer a d) ∨
      i = .onEdge ∨ i = .onEdgeReset ∨ i = .onEdgeLong ∨ i = .onEdgeShort) →
    exec i s = .refused .notConfigured) ∧
  (∀ s : State, s.tt = none → s.ClearUntilConfigured →
    exec .readStatus s = .next { s with trace := (s.tick, .status false 0) :: s.trace }) ∧
  (∀ c : Config, (State.resetWith c).tt = none ∧ (State.resetWith c).ClearUntilConfigured) ∧
  (∀ s t : State, s.ClearUntilConfigured → step s = .next t → t.ClearUntilConfigured)

/-- 70_reset_and_hazards.md section 2, for the rows that are line symbols and frame formats: that
these are operations at all is the model's reading (log entry 16); their durations are the
table's, so before `CONFIGURE` they are refused. -/
def Obligations.LineFormatsNeedTheTable : Prop :=
  ∀ (s : State) (i : Instr), s.tt = none →
    (i = .symBit0 ∨ i = .symBit1 ∨ i = .symIdle ∨ (∃ a d, i = .frameTx a d) ∨
      (∃ d, i = .frameRx d)) →
    exec i s = .refused .notConfigured

/-! ### CONFIGURE -/

/-- R60, R61, R63: the command word of code `000` is `CONFIGURE`; the table is derived once, each
duration the rational ceiling of `T_ns * TICK_HZ / 10^9`; nothing else changes; a second
`CONFIGURE` and a zero frequency are refused. -/
def Obligations.ConfigureDerivesTable : Prop :=
  (∀ w : CmdWord, w.extractLsb' 16 3 = 0b000 → decode (.command w) = .ok .configure) ∧
  ∀ s : State,
    (s.tt = none → s.ports.tickHz ≠ 0 →
      exec .configure s = .next { s with tt := some (
        { halfBit := ⌈((s.cfg.tHalfNs * s.ports.tickHz : ℕ) : ℚ) / 1000000000⌉₊
          fullBit := ⌈((s.cfg.tFullNs * s.ports.tickHz : ℕ) : ℚ) / 1000000000⌉₊
          shortLongBoundary := ⌈((s.cfg.tSlNs * s.ports.tickHz : ℕ) : ℚ) / 1000000000⌉₊
          idleThreshold := ⌈((s.cfg.tIdleNs * s.ports.tickHz : ℕ) : ℚ) / 1000000000⌉₊
          resetThreshold := ⌈((s.cfg.tResetNs * s.ports.tickHz : ℕ) : ℚ) / 1000000000⌉₊ }
          : TimingTable) }) ∧
    (s.tt ≠ none → exec .configure s = .refused .secondConfigure) ∧
    (s.tt = none → s.ports.tickHz = 0 → exec .configure s = .refused .zeroTickFrequency)

/-- 40_timing_config.md (low frequencies): with the default targets `WF` holds from 4801 ticks a
second on and `RT` from 2400 on, and each fails just below. -/
def Obligations.DefaultTargetsGiveSoundTables : Prop :=
  (∀ hz, 4801 ≤ hz → (configuredTable Config.standard hz).WF) ∧
  (∀ hz, 2400 ≤ hz → (configuredTable Config.standard hz).RT) ∧
  ¬ (configuredTable Config.standard 4800).WF ∧ ¬ (configuredTable Config.standard 2399).RT

/-- R41: the table is a constant of a run: once it has a value no step changes it, and a second
`CONFIGURE` is refused. The open parameters are constants of a run too. -/
def Obligations.TableIsConstantOfARun : Prop :=
  (∀ s t : State, step s = .next t → t.cfg = s.cfg ∧ ∀ tt, s.tt = some tt → t.tt = some tt) ∧
  (∀ s : State, s.tt ≠ none → exec .configure s = .refused .secondConfigure)

/-! ### The Transmitter -/

/-- R71: whatever the line's level, the mid-bit edge is one half-bit after the start, rising for 1
and falling for 0, and there is no other but the edge at the start when the line stood at the
bit's own level. -/
def Obligations.OneMidBitEdgePerBit : Prop :=
  ∀ (tt : TimingTable) (b : Level) (t : Nat),
    edgesOf (segBit tt b) t (!b) = [(t + tt.halfBit, b)] ∧
    edgesOf (segBit tt b) t b = [(t, !b), (t + tt.halfBit, b)]

/-- R73: segment `k` of a list of bits, its level, duration and start; and `segBits` is the common
form of `EMIT_BYTE` and of the bit part of `TRANSFER`. -/
def Obligations.SegmentsOfBits : Prop :=
  (∀ (tt : TimingTable) (bs : List Level) (k : Nat), k < 2 * bs.length →
    (segBits tt bs)[k]? = some
      { level := if k % 2 = 0 then !(bs.getD (k / 2) false) else bs.getD (k / 2) false
        duration := tt.halfBit } ∧
    durationOf ((segBits tt bs).take k) = k * tt.halfBit) ∧
  (∀ (tt : TimingTable) (v : Byte), segmentsOf tt (byteRequest v) =
    segBits tt [v[7], v[6], v[5], v[4], v[3], v[2], v[1], v[0]]) ∧
  (∀ (tt : TimingTable) (a d : Byte), segmentsOf tt (transferRequest a d) =
    segBits tt ([true] ++ [a[7], a[6], a[5], a[4], a[3], a[2], a[1], a[0]] ++
      [d[7], d[6], d[5], d[4], d[3], d[2], d[1], d[0]]) ++ segIdle tt)

/-- 41_transmitter.md: what the stand-alone operations of the Transmitter, and the line symbols
and the transmit frame (log entry 16), do at once when the sequencer is free: they take it, drive
the first level, and begin the first wait. Nothing else changes: no capability but the output
level is called, and the ReceiverState is untouched. -/
def Obligations.TransmissionsBegin : Prop :=
  ∀ (s : State) (tt : TimingTable) (i : Instr) (op : TxOp) (frame : Frame) (l : Level) (w : Nat),
    s.tt = some tt → s.Free →
    ((∃ b, i = .emitBit b ∧ op = .emitBit ∧ frame = (if b then 1 else 0) ∧ l = !b ∧
        w = tt.halfBit) ∨
     (∃ v : Byte, i = .emitByte v ∧ op = .emitByte ∧ frame = v.setWidth 17 ∧ l = !v[7] ∧
        w = tt.halfBit) ∨
     (i = .emitIdle ∧ op = .emitIdle ∧ frame = 0 ∧ l = true ∧ w = tt.idleThreshold) ∨
     (i = .symBit0 ∧ op = .emitBit ∧ frame = 0 ∧ l = true ∧ w = tt.halfBit) ∨
     (i = .symBit1 ∧ op = .emitBit ∧ frame = 1 ∧ l = false ∧ w = tt.halfBit) ∨
     (i = .symIdle ∧ op = .emitIdle ∧ frame = 0 ∧ l = true ∧ w = tt.idleThreshold) ∨
     (∃ a d : Byte, i = .frameTx a d ∧ op = .frame ∧ frame = (1 : BitVec 1) ++ a ++ d ∧
        l = false ∧ w = tt.halfBit)) →
    exec i s = .next
      { s with
        tx := { s.tx with busy := true, step := 0, timer := w, frame := frame, op := op }
        io := { s.io with outLevel := l }
        trace := (s.tick, .setOutputLevel l) :: s.trace }

/-- R70: the command word of code `001`; the segment list and its edges from either level; and
`EMIT_BIT b` from a free sequencer, with no input arriving meanwhile: the two calls at their
ticks, `2 * halfBit` ticks in all, and everything else as before. -/
def Obligations.EmitBitSendsItsSymbol : Prop :=
  (∀ w : CmdWord, w.extractLsb' 16 3 = 0b001 →
    decode (.command w) = .ok (.emitBit (w.getLsbD 0))) ∧
  (∀ (tt : TimingTable) (b : Level) (t : Nat),
    segmentsOf tt (bitRequest b) = [⟨!b, tt.halfBit⟩, ⟨b, tt.halfBit⟩] ∧
    edgesOf (segmentsOf tt (bitRequest b)) t (!b) = [(t + tt.halfBit, b)] ∧
    edgesOf (segmentsOf tt (bitRequest b)) t b = [(t, !b), (t + tt.halfBit, b)]) ∧
  ∀ (s : State) (tt : TimingTable) (b : Level),
    s.tt = some tt → s.Free → s.inbox = [] → s.tick < 2 ^ s.cfg.tickW →
    ∃ s₁, exec (.emitBit b) s = .next s₁ ∧
      runSteps (2 * tt.halfBit + 2) s₁ = .next
        { s with
          tick := (s.tick + 2 * tt.halfBit) % 2 ^ s.cfg.tickW
          tx := { s.tx with busy := false, step := 0, timer := 0,
                            frame := (if b then 1 else 0), op := .emitBit }
          io := { s.io with outLevel := b }
          trace := ((s.tick + tt.halfBit) % 2 ^ s.cfg.tickW, .setOutputLevel b) ::
            (s.tick, .setOutputLevel !b) :: s.trace }

/-- R74: the command word of code `011`; the segment list, which makes an edge only from a line at
0; and `EMIT_IDLE` from a free sequencer, with no input arriving meanwhile. -/
def Obligations.EmitIdleHoldsTheLineHigh : Prop :=
  (∀ w : CmdWord, w.extractLsb' 16 3 = 0b011 → decode (.command w) = .ok .emitIdle) ∧
  (∀ (tt : TimingTable) (t : Nat),
    segmentsOf tt idleRequest = [⟨true, tt.idleThreshold⟩] ∧
    edgesOf (segmentsOf tt idleRequest) t true = [] ∧
    edgesOf (segmentsOf tt idleRequest) t false = [(t, true)]) ∧
  ∀ (s : State) (tt : TimingTable),
    s.tt = some tt → s.Free → s.inbox = [] → s.tick < 2 ^ s.cfg.tickW →
    ∃ s₁, exec .emitIdle s = .next s₁ ∧
      runSteps (tt.idleThreshold + 1) s₁ = .next
        { s with
          tick := (s.tick + tt.idleThreshold) % 2 ^ s.cfg.tickW
          tx := { s.tx with busy := false, step := 0, timer := 0, frame := 0, op := .emitIdle }
          io := { s.io with outLevel := true }
          trace := (s.tick, .setOutputLevel true) :: s.trace }

/-- 41_transmitter.md (blocking and time): every transmission outside the bracket, from a free
sequencer and with no input arriving meanwhile, makes exactly the calls of its segment list, the
`k`-th at the start tick plus the durations before it, and leaves everything else as it was. The
rows that are line symbols and the transmit frame are the model's reading (log entry 16). -/
def Obligations.TransmissionsRunTheirSegments : Prop :=
  ∀ (s : State) (tt : TimingTable) (i : Instr) (r : TxRequest),
    s.tt = some tt → s.Free → s.inbox = [] → s.tick < 2 ^ s.cfg.tickW →
    ((∃ b, i = .emitBit b ∧ r = bitRequest b) ∨
     (∃ v, i = .emitByte v ∧ r = byteRequest v) ∨
     (i = .emitIdle ∧ r = idleRequest) ∨
     (i = .symBit0 ∧ r = bitRequest false) ∨
     (i = .symBit1 ∧ r = bitRequest true) ∨
     (i = .symIdle ∧ r = idleRequest) ∨
     (∃ a d, i = .frameTx a d ∧ r = frameRequest a d)) →
    ∃ s₁, exec i s = .next s₁ ∧
      runSteps (durationOf (segmentsOf tt r) + (segmentsOf tt r).length) s₁ =
        .next (s.afterSending r (segmentsOf tt r))

/-! ### The Transfer Orchestrator -/

/-- 43_transfer.md: what `TRANSFER` does at once when the sequencer is free and disabling
succeeds: it takes the sequencer with its frame `1 ++ a ++ d` and disables edge detection. -/
def Obligations.TransferBegins : Prop :=
  ∀ (s : State) (tt : TimingTable) (a d : Byte),
    s.tt = some tt → s.Free → s.io.disableResult = 0 →
    exec (.transfer a d) s = .next
      { s with
        tx := { s.tx with busy := true, step := 0, timer := 0,
                          frame := (1 : BitVec 1) ++ a ++ d, op := .transfer }
        io := { s.io with edgeDetect := false }
        trace := (s.tick, .disableInputEdgeDetection 0) :: s.trace }

/-- 43_transfer.md (the schedule, blocking and result) and 60_exceptions.md (propagation): the
schedule `tx.step` indexes, element by element; and the whole run of a `TRANSFER` with no input
arriving meanwhile: one disable, 34 half-bit calls and the idle call at their ticks, one enable, its
code returned at `34 * halfBit + idleThreshold` ticks, whatever the bytes; edge detection is on exactly if the enable reported 0 (off after a failed enable is log
entry 21), and everything else, the ReceiverState among it, is as it was. -/
def Obligations.TransferRunsItsSchedule : Prop :=
  (∀ (tt : TimingTable) (a d : Byte),
    let elements := scheduleOf tt (transferRequest a d)
    elements.length = 37 ∧ elements[0]? = some ⟨.disable, 0⟩ ∧
    (∀ k, k < 34 → elements[1 + k]? = some ⟨.drive (frameSlot a d k), tt.halfBit⟩) ∧
    elements[35]? = some ⟨.drive true, tt.idleThreshold⟩ ∧ elements[36]? = some ⟨.enable, 0⟩) ∧
  ∀ (s : State) (tt : TimingTable) (a d : Byte),
    s.tt = some tt → s.Free → s.inbox = [] → s.tick < 2 ^ s.cfg.tickW → s.io.disableResult = 0 →
    ∃ s₁, exec (.transfer a d) s = .next s₁ ∧
      runSteps (34 * tt.halfBit + tt.idleThreshold + 37) s₁ = .next
        { s with
          tick := (s.tick + (34 * tt.halfBit + tt.idleThreshold)) % 2 ^ s.cfg.tickW
          tx := { busy := false, step := 0, timer := 0, frame := (1 : BitVec 1) ++ a ++ d,
                  result := s.io.enableResult, op := .transfer }
          io := { s.io with outLevel := true, edgeDetect := decide (s.io.enableResult = 0) }
          trace := (transferOutputs s.cfg.tickW tt a d s.tick s.io.enableResult).reverse ++
            s.trace }

/-- 43_transfer.md (result), 90_conflicts.md C4: a `TRANSFER` whose disable reports a failure is
refused when it would start, whatever the code. -/
def Obligations.FailedDisableRefused : Prop :=
  ∀ (s : State) (tt : TimingTable) (a d : Byte),
    s.tt = some tt → s.Free → s.io.disableResult ≠ 0 →
    exec (.transfer a d) s = .refused .disableFailed

/-- 43_transfer.md (one transfer at a time): a request made while the sequencer is busy is held,
not rejected and not dropped, and nothing else changes. That the stand-alone transmissions are
held too, and that a request waits while others are held, are log entries 11 and 12. -/
def Obligations.BusySequencerHoldsRequests : Prop :=
  ∀ (s : State) (i : Instr) (r : TxRequest), s.tt ≠ none → ¬ s.Free →
    ((∃ a d, i = .transfer a d ∧ r = transferRequest a d) ∨
     (∃ b, i = .emitBit b ∧ r = bitRequest b) ∨
     (∃ v, i = .emitByte v ∧ r = byteRequest v) ∨
     (i = .emitIdle ∧ r = idleRequest) ∨
     (i = .symBit0 ∧ r = bitRequest false) ∨
     (i = .symBit1 ∧ r = bitRequest true) ∨
     (i = .symIdle ∧ r = idleRequest) ∨
     (∃ a d, i = .frameTx a d ∧ r = frameRequest a d)) →
    exec i s = .next { s with held := s.held ++ [r] }

/-- 43_transfer.md (one transfer at a time; no cancellation): whatever arrives, a transmission in
progress keeps its operation and its bits and goes through its schedule one element at a time: in
each step either the ticks it still takes stay the same and no time passes, or one tick passes
and one less is left; and it ends only when none is left. -/
def Obligations.TransmissionKeepsItsPace : Prop :=
  ∀ (s t : State) (tt : TimingTable), s.tt = some tt → s.tx.busy = true → step s = .next t →
    (t.tx.busy = true →
      t.tx.op = s.tx.op ∧ t.tx.frame = s.tx.frame ∧
      (t.tx.step = s.tx.step ∨ t.tx.step = s.tx.step + 1) ∧
      ((t.tick = s.tick ∧ t.ticksLeft tt = s.ticksLeft tt) ∨
       (t.tick = (s.tick + 1) % 2 ^ s.cfg.tickW ∧ t.ticksLeft tt + 1 = s.ticksLeft tt))) ∧
    (t.tx.busy = false → t.tick = s.tick ∧ s.ticksLeft tt = 0 ∧ t.tx.step = 0)

/-- 43_transfer.md (one transfer at a time): a request held is not dropped: in every step the held
requests stay, at most one newcomer behind them, or a sequencer that was free has taken exactly one
of them, one occurrence and no other. -/
def Obligations.HeldRequestsAreNotLost : Prop :=
  ∀ s t : State, step s = .next t →
    (∃ newcomers, newcomers.length ≤ 1 ∧ t.held = s.held ++ newcomers) ∨
    (s.tx.busy = false ∧ t.tx.busy = true ∧
      ∃ k r, s.held[k]? = some r ∧ t.held = s.held.eraseIdx k ∧ t.request = r)

/-- 43_transfer.md (one transfer at a time): with the sequencer free and requests held, a step takes
exactly one of them and makes the first call of its schedule, or takes none, which one being a free
value (log entry 12): then a tick passes, or the input that waits at this tick arrives (log entry
15). -/
def Obligations.HeldRequestsStart : Prop :=
  ∀ (s : State) (tt : TimingTable), s.tt = some tt → s.tx.busy = false → s.held ≠ [] →
    ((∀ a rest, s.inbox = a :: rest → 0 < a.delay) →
      s.StartsHeld tt ∨ step s = .next { s.passTick with choices := s.choices + 1 }) ∧
    (∀ a rest, s.inbox = a :: rest → a.delay = 0 → a.afterCalls = true →
      s.StartsHeld tt ∨
        step s = State.deliver { s with inbox := rest, choices := s.choices + 1 } a.input)

/-- R105: the number of edges of a `TRANSFER a, d` from a line at 1, its bounds and its parity. -/
def Obligations.TransferEdgeCount : Prop :=
  (∀ (tt : TimingTable) (a d : Byte) (t : Nat),
    let n := (edgesOf (segmentsOf tt (transferRequest a d)) t true).length
    let f := (1 : BitVec 1) ++ a ++ d
    n = 1 + 17 + ((List.range 16).filter fun j => f.getLsbD (15 - j) == f.getLsbD (16 - j)).length +
        (if d.getLsbD 0 then 0 else 1) ∧
      n % 2 = 0 ∧ 18 ≤ n ∧ n ≤ 34) ∧
  (∀ (tt : TimingTable) (t : Nat),
    (edgesOf (segmentsOf tt (transferRequest 0x55 0x55)) t true).length = 18 ∧
    (edgesOf (segmentsOf tt (transferRequest 0x00 0x00)) t true).length = 34 ∧
    (edgesOf (segmentsOf tt (transferRequest 0xFF 0xFF)) t true).length = 34 ∧
    (edgesOf (segmentsOf tt (transferRequest 0x01 0xFF)) t true).length = 32)

/-! ### The Receiver -/

/-- 42_receiver.md (arithmetic laws): `elapsed` is the difference of the timestamps modulo
`2^TICK_W`. -/
def Obligations.ElapsedIsModularDifference : Prop :=
  ∀ (c : Config) (rx : ReceiverState) (now : Nat),
    elapsed c rx now = modularGap c rx.lastEdgeTimestamp now ∧ elapsed c rx now < 2 ^ c.tickW

/-- R86: `ON_EDGE` is the one pure function of that rule, and changes nothing but the
ReceiverState. -/
def Obligations.OnEdgeIsThePureStep : Prop :=
  ∀ (s : State) (tt : TimingTable), s.tt = some tt →
    exec .onEdge s = .next { s with rx := onEdgePure s.cfg tt s.rx s.ports.now }

/-- R81: an edge of class RESET, from any state, given as `ON_EDGE` or as its own row. -/
def Obligations.ResetClassRestartsTheReceiver : Prop :=
  ∀ (s : State) (tt : TimingTable), s.tt = some tt →
    tt.resetThreshold < elapsed s.cfg s.rx s.ports.now →
    ∀ i, i = .onEdge ∨ i = .onEdgeReset →
    exec i s = .next
      { s with rx :=
          { lastEdgeTimestamp := s.ports.now % 2 ^ s.cfg.tickW
            accumulatedBits := 0
            halfBitCount := 0
            lastDecodedBit := true
            frameReady := false } }

/-- R82: an edge of class LONG, given as `ON_EDGE` or as its own row. -/
def Obligations.LongClassCommitsTheComplement : Prop :=
  ∀ (s : State) (tt : TimingTable), s.tt = some tt →
    tt.shortLongBoundary < elapsed s.cfg s.rx s.ports.now →
    elapsed s.cfg s.rx s.ports.now ≤ tt.resetThreshold →
    ∀ i, i = .onEdge ∨ i = .onEdgeLong →
    exec i s = .next
      { s with rx :=
          { lastEdgeTimestamp := s.ports.now % 2 ^ s.cfg.tickW
            accumulatedBits :=
              (2 * s.rx.accumulatedBits + (if s.rx.lastDecodedBit then 0 else 1)) % 2 ^ s.cfg.accW
            halfBitCount := (s.rx.halfBitCount + 2) % 2 ^ s.cfg.cntW
            lastDecodedBit := !s.rx.lastDecodedBit
            frameReady := s.rx.frameReady ||
              decide (17 ≤ (s.rx.halfBitCount + 2) % 2 ^ s.cfg.cntW) } }

/-- R83: an edge of class SHORT, given as `ON_EDGE` or as its own row. The tests of R49 are made
in order, so the class also needs the interval not to be above the reset threshold. -/
def Obligations.ShortClassCommitsAtOddCounts : Prop :=
  ∀ (s : State) (tt : TimingTable), s.tt = some tt →
    elapsed s.cfg s.rx s.ports.now ≤ tt.shortLongBoundary →
    elapsed s.cfg s.rx s.ports.now ≤ tt.resetThreshold →
    ∀ i, i = .onEdge ∨ i = .onEdgeShort →
    exec i s = .next
      { s with rx :=
          { lastEdgeTimestamp := s.ports.now % 2 ^ s.cfg.tickW
            accumulatedBits :=
              if (s.rx.halfBitCount + 1) % 2 ^ s.cfg.cntW % 2 = 1 then
                (2 * s.rx.accumulatedBits + (if s.rx.lastDecodedBit then 1 else 0)) %
                  2 ^ s.cfg.accW
              else s.rx.accumulatedBits
            halfBitCount := (s.rx.halfBitCount + 1) % 2 ^ s.cfg.cntW
            lastDecodedBit := s.rx.lastDecodedBit
            frameReady := s.rx.frameReady ||
              decide (17 ≤ (s.rx.halfBitCount + 1) % 2 ^ s.cfg.cntW) } }

/-- 30_encoding.md sections 3 and 5: exactly one of the three rows is selected, `ON_EDGE` does what
that row does, and the other two are refused (the refusal is log entry 9). -/
def Obligations.ElapsedSelectsOneRow : Prop :=
  ∀ (s : State) (tt : TimingTable), s.tt = some tt →
    ∃ i, i ∈ [Instr.onEdgeReset, .onEdgeLong, .onEdgeShort] ∧ exec .onEdge s = exec i s ∧
      (∃ t, exec i s = .next t) ∧
      ∀ j, j ∈ [Instr.onEdgeReset, .onEdgeLong, .onEdgeShort] → j ≠ i →
        exec j s = .refused .classNotSelected

/-- R85: whatever the class, an edge ends with the timestamp update. -/
def Obligations.EveryEdgeIsStamped : Prop :=
  ∀ (s : State) (tt : TimingTable), s.tt = some tt →
    ∃ t, exec .onEdge s = .next t ∧ t.rx.lastEdgeTimestamp = s.ports.now % 2 ^ s.cfg.tickW

/-- R94: the two thresholds themselves are SHORT and LONG, and one tick above each is LONG and
RESET: the classes as the effect they have on the half-bit count, on every table on which the
LONG class is not empty. -/
def Obligations.ThresholdsPickOneBranch : Prop :=
  ∀ (s : State) (tt : TimingTable), s.tt = some tt → tt.shortLongBoundary < tt.resetThreshold →
    ∃ t, exec .onEdge s = .next t ∧
      (elapsed s.cfg s.rx s.ports.now = tt.shortLongBoundary →
        t.rx.halfBitCount = (s.rx.halfBitCount + 1) % 2 ^ s.cfg.cntW ∧
        t.rx.lastDecodedBit = s.rx.lastDecodedBit) ∧
      (elapsed s.cfg s.rx s.ports.now = tt.shortLongBoundary + 1 ∨
        elapsed s.cfg s.rx s.ports.now = tt.resetThreshold →
        t.rx.halfBitCount = (s.rx.halfBitCount + 2) % 2 ^ s.cfg.cntW ∧
        t.rx.lastDecodedBit = !s.rx.lastDecodedBit) ∧
      (elapsed s.cfg s.rx s.ports.now = tt.resetThreshold + 1 →
        t.rx.halfBitCount = 0 ∧ t.rx.lastDecodedBit = true ∧ t.rx.frameReady = false)

/-- R88: the command word of code `110`; the pair of one state on the status port; the flag cleared
only if `CLEAR_ON_READ`. -/
def Obligations.ReadStatusSnapshots : Prop :=
  (∀ w : CmdWord, w.extractLsb' 16 3 = 0b110 → decode (.command w) = .ok .readStatus) ∧
  ∀ s : State,
    exec .readStatus s = .next
      { s with
        rx := { s.rx with frameReady := s.rx.frameReady && !s.cfg.clearOnRead }
        trace := (s.tick, .status s.rx.frameReady
          (BitVec.ofNat 16 (s.rx.accumulatedBits % 65536))) :: s.trace }

/-- 10_state.md section 2: of all operations only the deliveries of edges write the ReceiverState,
but for the clearing read; no move of the transmit agent does; and of all steps only those that
deliver an edge with edge detection on, as an operation or as a change of the input line, or that
read. -/
def Obligations.OnlyEdgesWriteTheReceiver : Prop :=
  (∀ (s t : State) (i : Instr), exec i s = .next t → i.isEdgeEvent = false →
    t.rx = s.rx ∨ (i = .readStatus ∧ s.cfg.clearOnRead = true ∧ s.rx.frameReady = true ∧
      t.rx = { s.rx with frameReady := false })) ∧
  (∀ s t : State, s.advance = .next t → t.rx = s.rx) ∧
  (∀ s t : State, step s = .next t → t.rx = s.rx ∨
    ∃ a rest, s.inbox = a :: rest ∧ a.delay = 0 ∧
      ((∃ e i, a.input = State.inputOf e ∧ decode e = .ok i ∧ i.isEdgeEvent = true ∧
          s.io.edgeDetect = true) ∨
       (∃ l, a.input = .lineIn l ∧ l ≠ s.io.inLevel ∧ s.io.edgeDetect = true) ∨
       (∃ w, a.input = .command w ∧ decode (.command w) = .ok .readStatus ∧
          s.cfg.clearOnRead = true ∧ s.rx.frameReady = true ∧
          t.rx = { s.rx with frameReady := false })))

/-- 43_transfer.md (effect on reception), 10_state.md section 4: while edge detection is off no
step touches the ReceiverState, whatever arrives, but for a clearing read. -/
def Obligations.MaskedReceiverIsFrozen : Prop :=
  ∀ s t : State, step s = .next t → s.io.edgeDetect = false →
    t.rx = s.rx ∨ (s.cfg.clearOnRead = true ∧ t.rx = { s.rx with frameReady := false })

/-- 10_state.md section 2: `frameReady`, once set, is cleared by an edge of class RESET or by a
clearing read and by no other operation (`FRAME_RX`, which delivers many edges, apart), and by no
move of the transmit agent. -/
def Obligations.ReadyFlagIsClearedOnlyByResetOrRead : Prop :=
  (∀ (s t : State) (i : Instr), exec i s = .next t → (∀ d, i ≠ .frameRx d) →
    s.rx.frameReady = true → t.rx.frameReady = false →
    (i = .readStatus ∧ s.cfg.clearOnRead = true) ∨
    ((i = .onEdge ∨ i = .onEdgeReset) ∧ t.rx.halfBitCount = 0 ∧ t.rx.accumulatedBits = 0 ∧
      ∃ tt, s.tt = some tt ∧ tt.resetThreshold < elapsed s.cfg s.rx s.ports.now)) ∧
  (∀ s t : State, s.advance = .next t → t.rx.frameReady = s.rx.frameReady)

/-- 10_state.md section 2 (derived invariants), with the bound that the number of commits gives:
`ON_EDGE` keeps them, if fewer than `2^CNT_W - 2` half-bits have been counted since the last RESET
class. -/
def Obligations.EdgesKeepReceiverConsistent : Prop :=
  ∀ (s : State) (tt : TimingTable), s.cfg.Admissible → s.tt = some tt → s.rx.Consistent →
    s.rx.halfBitCount + 2 < 2 ^ s.cfg.cntW →
    ∃ t, exec .onEdge s = .next t ∧ t.rx.Consistent

/-- 10_state.md section 2 (derived invariants), clause (c): over any sequence of edges from a
ReceiverState at count 0 with an empty register, as long as the count never comes within two of its
modulus, the bits committed since the last RESET class are as many as half the count, rounded up,
and the register holds exactly them, the first one most significant, truncated to its width. -/
def Obligations.CommitsKeepStepWithHalfBits : Prop :=
  ∀ (c : Config) (tt : TimingTable) (rx : ReceiverState) (nows : List Nat),
    6 ≤ c.cntW → rx.halfBitCount = 0 → rx.accumulatedBits = 0 →
    (∀ k, k < nows.length →
      (receive c tt rx (nows.take k)).halfBitCount + 2 < 2 ^ c.cntW) →
    let bits := (nows.foldl (committedEdge c tt) (rx, [])).2
    bits.length = ((receive c tt rx nows).halfBitCount + 1) / 2 ∧
      (receive c tt rx nows).accumulatedBits = ofMsbBits bits % 2 ^ c.accW

/-- 10_state.md section 2: the low 16 bits of the accumulator, and every other register of the
Receiver, are the same for every admissible `ACC_W`. -/
def Obligations.LowAccumulatorBitsIgnoreWidth : Prop :=
  ∀ (s : State) (tt : TimingTable) (w acc : Nat), s.tt = some tt → 16 ≤ s.cfg.accW → 16 ≤ w →
    acc % 65536 = s.rx.accumulatedBits % 65536 →
    ∃ t u, exec .onEdge s = .next t ∧
      exec .onEdge { s with cfg := { s.cfg with accW := w },
                            rx := { s.rx with accumulatedBits := acc } } = .next u ∧
      u.rx.accumulatedBits % 65536 = t.rx.accumulatedBits % 65536 ∧
      { u.rx with accumulatedBits := 0 } = { t.rx with accumulatedBits := 0 }

/-- 20_memory.md section 5: an `ON_EDGE` and a move of the transmit agent commute. -/
def Obligations.EdgesCommuteWithTheTransmitAgent : Prop :=
  ∀ (s s₁ : State) (tt : TimingTable), s.tt = some tt → s.advance = .next s₁ →
    ∃ s₂ t, exec .onEdge s = .next s₂ ∧ s₂.advance = .next t ∧ exec .onEdge s₁ = .next t

/-- 60_exceptions.md section 2: a change of level of the input line is an `ON_EDGE` at the present
tick if edge detection is on; if it is off it is dropped; and a drive to the present level is no
edge. -/
def Obligations.LineChangesAreEdges : Prop :=
  ∀ (s : State) (tt : TimingTable) (l : Level) (a : Arrival) (rest : List Arrival),
    s.tt = some tt → s.inbox = a :: rest → s.Due a → a.input = .lineIn l →
    (s.io.inLevel = l → step s = .next { s with inbox := rest }) ∧
    (s.io.inLevel ≠ l → s.io.edgeDetect = false →
      step s = .next { s with inbox := rest, io := { s.io with inLevel := l } }) ∧
    (s.io.inLevel ≠ l → s.io.edgeDetect = true →
      step s = .next
        { s with
          inbox := rest
          io := { s.io with inLevel := l }
          ports := { s.ports with now := s.tick }
          rx := onEdgePure s.cfg tt s.rx s.tick })

/-- 60_exceptions.md (the I/O capability), 70_reset_and_hazards.md section 2: the host's own calls
of enable and disable. A failed disable leaves detection as it was; after a failed enable it is off
(log entry 21). That the host may call them at any tick is log entry 31. -/
def Obligations.HostSwitchesEdgeDetection : Prop :=
  ∀ (s : State) (a : Arrival) (rest : List Arrival), s.inbox = a :: rest → s.Due a →
    (a.input = .hostEnable →
      step s = .next
        { s with
          inbox := rest
          io := { s.io with edgeDetect := decide (s.io.enableResult = 0) } }) ∧
    (a.input = .hostDisable → s.io.disableResult = 0 →
      step s = .next
        { s with
          inbox := rest
          io := { s.io with edgeDetect := false } }) ∧
    (a.input = .hostDisable → s.io.disableResult ≠ 0 → step s = .next { s with inbox := rest })

/-- 20_memory.md section 1, 60_exceptions.md (the I/O capability): what the host puts on the
configure port and on the edge-event port, and the codes the capability will report, each at the
width of its wires and changing nothing else. That the codes to come are state is log entry 6, their
reduction log entry 21. -/
def Obligations.PortsAndCodesAreWritten : Prop :=
  ∀ (s : State) (a : Arrival) (rest : List Arrival), s.inbox = a :: rest → s.Due a →
    (∀ hz, a.input = .configurePort hz →
      step s = .next { s with inbox := rest, ports := { tickHz := hz, now := s.ports.now } }) ∧
    (∀ now, a.input = .edgePort now →
      step s = .next
        { s with
          inbox := rest
          ports := { tickHz := s.ports.tickHz, now := now % 2 ^ s.cfg.tickW } }) ∧
    (∀ d e, a.input = .capabilityCodes d e →
      ∃ x y : Int, CodeFits s.cfg x ∧ CodeFits s.cfg y ∧
        (2 ^ s.cfg.resultW : Int) ∣ x - d ∧ (2 ^ s.cfg.resultW : Int) ∣ y - e ∧
        step s = .next
          { s with
            inbox := rest
            io := { s.io with disableResult := x, enableResult := y } })

/-! ### Frames, end to end -/

/-- 42_receiver.md (decoding a well-formed frame): a frame `1 :: bs` sent from an idle line and
delivered on the ideal channel, its first edge classed RESET, on a table with `RT`: after the
mid-bit edge of its last bit. -/
def Obligations.WellFormedFramesDecode : Prop :=
  ∀ (c : Config) (tt : TimingTable) (rx : ReceiverState) (bs : List Level) (t₀ : Nat),
    tt.RT → FirstEdgeResets c tt rx t₀ → 2 * bs.length + 1 < 2 ^ c.cntW →
    receive c tt rx (edgeTicks (segBits tt (true :: bs)) t₀) =
      { lastEdgeTimestamp := (t₀ + (2 * bs.length + 1) * tt.halfBit) % 2 ^ c.tickW
        accumulatedBits := ofMsbBits (true :: bs) % 2 ^ c.accW
        halfBitCount := 2 * bs.length + 1
        lastDecodedBit := bs.getLastD true
        frameReady := decide (8 ≤ bs.length) }

/-- 30_encoding.md section 2, 42_receiver.md (decoding a well-formed frame): `FRAME_RX` on any table
delivers the edges of its frame one after the other and changes nothing but the ReceiverState. That
the row is this operation is log entry 16. -/
def Obligations.ReceiveFrameDeliversItsEdges : Prop :=
  ∀ (s : State) (tt : TimingTable) (d : Byte), s.tt = some tt →
    let frame := segBits tt [true, d[7], d[6], d[5], d[4], d[3], d[2], d[1], d[0]]
    exec (.frameRx d) s = .next
      { s with rx := receive s.cfg tt s.rx (edgeTicks frame s.ports.now) }

/-- 42_receiver.md (the round-trip property, read with the start bit), 30_encoding.md section 2:
the receive frame of a byte, its first edge classed RESET, leaves `0x100 + d` in the register, the
count at 17 and the flag set. That `FRAME_RX` delivers that frame's edges is log entry 16. -/
def Obligations.ReceiveFrameDecodes : Prop :=
  ∀ (s : State) (tt : TimingTable) (d : Byte), s.cfg.Admissible → s.tt = some tt → tt.RT →
    FirstEdgeResets s.cfg tt s.rx s.ports.now →
    exec (.frameRx d) s = .next
      { s with rx :=
          { lastEdgeTimestamp := (s.ports.now + 17 * tt.halfBit) % 2 ^ s.cfg.tickW
            accumulatedBits := 256 + d.toNat
            halfBitCount := 17
            lastDecodedBit := d[0]
            frameReady := true } }

/-- 20_memory.md section 2, 95_test_vectors.md section 3: the trace of a `TRANSFER a, d`, fed to a
peer on the ideal channel, leaves both bytes in the low 16 bits of its register and its flag set. -/
def Obligations.PeerReceivesTheTransfer : Prop :=
  ∀ (c : Config) (tt : TimingTable) (rx : ReceiverState) (a d : Byte) (t₀ : Nat),
    c.Admissible → tt.RT → FirstEdgeResets c tt rx t₀ →
    let r := receive c tt rx (edgeTicks (segmentsOf tt (transferRequest a d)) t₀)
    r.accumulatedBits % 65536 = 256 * a.toNat + d.toNat ∧ r.frameReady = true ∧
      r.halfBitCount = (if d[0] then 33 else 34) ∧ r.lastDecodedBit = d[0]

/-- 42_receiver.md (the round-trip property): without the start bit the flag never rises, whether
or not the idle gap follows. -/
def Obligations.NoStartBitNoFrame : Prop :=
  ∀ (c : Config) (tt : TimingTable) (rx : ReceiverState) (v : Byte) (t₀ : Nat) (k : Nat),
    c.Admissible → tt.RT →
    FirstEdgeResets c tt rx (if v[7] then t₀ else t₀ + tt.halfBit) →
    let nows := edgeTicks (segBits tt (msbBits v) ++ segIdle tt) t₀
    0 < k → (receive c tt rx (nows.take k)).frameReady = false ∧
      (receive c tt rx (nows.take k)).halfBitCount ≤ 16

/-- 42_receiver.md (jitter): moving each timestamp of a frame by at most `j` ticks changes nothing
but the timestamp, under the conditions that rule gives. -/
def Obligations.JitterDoesNotChangeTheFrame : Prop :=
  ∀ (c : Config) (tt : TimingTable) (rx : ReceiverState) (bs : List Level) (t₀ j : Nat)
    (moves : List Int),
    let nows := edgeTicks (segBits tt (true :: bs)) t₀
    let moved := List.zipWith (fun (t : Nat) (m : Int) => ((t : Int) + m).toNat) nows moves
    moves.length = nows.length → (∀ m ∈ moves, -(j : Int) ≤ m ∧ m ≤ j) → j ≤ t₀ →
    tt.halfBit + 2 * j ≤ tt.shortLongBoundary → tt.shortLongBoundary + 2 * j < 2 * tt.halfBit →
    2 * tt.halfBit + 2 * j ≤ tt.resetThreshold → 2 * j < tt.halfBit →
    FirstEdgeResets c tt rx t₀ → FirstEdgeResets c tt rx (moved.headD 0) →
    { receive c tt rx moved with lastEdgeTimestamp := 0 } =
      { receive c tt rx nows with lastEdgeTimestamp := 0 }

/-! ### Invariants -/

/-- The invariant of the registers' ranges holds at power-on, for every admissible choice of the
open parameters. -/
def Obligations.RangesHoldAtPowerOn : Prop :=
  ∀ c : Config, c.Admissible → (State.resetWith c).InRange

/-- 10_state.md sections 2 to 4: every register keeps its range, the sequencer at rest stands at 0,
and nothing is sent or held before `CONFIGURE`, in every step from every such state. -/
def Obligations.EveryStepKeepsRanges : Prop :=
  ∀ s t : State, s.InRange → step s = .next t → t.InRange
end

