-- ==== Sys2Proof/Laws/State.lean ====
section
/-!
SUPPORT. What each named update of the state leaves in each field. All hold by `rfl`, so that no
later proof unfolds a record update.
-/

namespace Sys2Proof.Machine.State

variable (s : State)

/-! ### `withRx` -/

@[simp] theorem withRx_cfg (rx : ReceiverState) : (s.withRx rx).cfg = s.cfg := rfl
@[simp] theorem withRx_tt (rx : ReceiverState) : (s.withRx rx).tt = s.tt := rfl
@[simp] theorem withRx_rx (rx : ReceiverState) : (s.withRx rx).rx = rx := rfl
@[simp] theorem withRx_tx (rx : ReceiverState) : (s.withRx rx).tx = s.tx := rfl
@[simp] theorem withRx_io (rx : ReceiverState) : (s.withRx rx).io = s.io := rfl
@[simp] theorem withRx_ports (rx : ReceiverState) : (s.withRx rx).ports = s.ports := rfl
@[simp] theorem withRx_tick (rx : ReceiverState) : (s.withRx rx).tick = s.tick := rfl
@[simp] theorem withRx_held (rx : ReceiverState) : (s.withRx rx).held = s.held := rfl
@[simp] theorem withRx_inbox (rx : ReceiverState) : (s.withRx rx).inbox = s.inbox := rfl
@[simp] theorem withRx_trace (rx : ReceiverState) : (s.withRx rx).trace = s.trace := rfl
@[simp] theorem withRx_choices (rx : ReceiverState) : (s.withRx rx).choices = s.choices := rfl

/-! ### `withTx` -/

@[simp] theorem withTx_cfg (tx : TxState) : (s.withTx tx).cfg = s.cfg := rfl
@[simp] theorem withTx_tt (tx : TxState) : (s.withTx tx).tt = s.tt := rfl
@[simp] theorem withTx_rx (tx : TxState) : (s.withTx tx).rx = s.rx := rfl
@[simp] theorem withTx_tx (tx : TxState) : (s.withTx tx).tx = tx := rfl
@[simp] theorem withTx_io (tx : TxState) : (s.withTx tx).io = s.io := rfl
@[simp] theorem withTx_ports (tx : TxState) : (s.withTx tx).ports = s.ports := rfl
@[simp] theorem withTx_tick (tx : TxState) : (s.withTx tx).tick = s.tick := rfl
@[simp] theorem withTx_held (tx : TxState) : (s.withTx tx).held = s.held := rfl
@[simp] theorem withTx_inbox (tx : TxState) : (s.withTx tx).inbox = s.inbox := rfl
@[simp] theorem withTx_trace (tx : TxState) : (s.withTx tx).trace = s.trace := rfl
@[simp] theorem withTx_choices (tx : TxState) : (s.withTx tx).choices = s.choices := rfl

/-! ### `withIo` -/

@[simp] theorem withIo_cfg (io : IoState) : (s.withIo io).cfg = s.cfg := rfl
@[simp] theorem withIo_tt (io : IoState) : (s.withIo io).tt = s.tt := rfl
@[simp] theorem withIo_rx (io : IoState) : (s.withIo io).rx = s.rx := rfl
@[simp] theorem withIo_tx (io : IoState) : (s.withIo io).tx = s.tx := rfl
@[simp] theorem withIo_io (io : IoState) : (s.withIo io).io = io := rfl
@[simp] theorem withIo_ports (io : IoState) : (s.withIo io).ports = s.ports := rfl
@[simp] theorem withIo_tick (io : IoState) : (s.withIo io).tick = s.tick := rfl
@[simp] theorem withIo_held (io : IoState) : (s.withIo io).held = s.held := rfl
@[simp] theorem withIo_inbox (io : IoState) : (s.withIo io).inbox = s.inbox := rfl
@[simp] theorem withIo_trace (io : IoState) : (s.withIo io).trace = s.trace := rfl
@[simp] theorem withIo_choices (io : IoState) : (s.withIo io).choices = s.choices := rfl

/-! ### `withPorts` -/

@[simp] theorem withPorts_cfg (p : Ports) : (s.withPorts p).cfg = s.cfg := rfl
@[simp] theorem withPorts_tt (p : Ports) : (s.withPorts p).tt = s.tt := rfl
@[simp] theorem withPorts_rx (p : Ports) : (s.withPorts p).rx = s.rx := rfl
@[simp] theorem withPorts_tx (p : Ports) : (s.withPorts p).tx = s.tx := rfl
@[simp] theorem withPorts_io (p : Ports) : (s.withPorts p).io = s.io := rfl
@[simp] theorem withPorts_ports (p : Ports) : (s.withPorts p).ports = p := rfl
@[simp] theorem withPorts_tick (p : Ports) : (s.withPorts p).tick = s.tick := rfl
@[simp] theorem withPorts_held (p : Ports) : (s.withPorts p).held = s.held := rfl
@[simp] theorem withPorts_inbox (p : Ports) : (s.withPorts p).inbox = s.inbox := rfl
@[simp] theorem withPorts_trace (p : Ports) : (s.withPorts p).trace = s.trace := rfl
@[simp] theorem withPorts_choices (p : Ports) : (s.withPorts p).choices = s.choices := rfl

/-! ### `withTable` -/

@[simp] theorem withTable_cfg (tt : TimingTable) : (s.withTable tt).cfg = s.cfg := rfl
@[simp] theorem withTable_tt (tt : TimingTable) : (s.withTable tt).tt = some tt := rfl
@[simp] theorem withTable_rx (tt : TimingTable) : (s.withTable tt).rx = s.rx := rfl
@[simp] theorem withTable_tx (tt : TimingTable) : (s.withTable tt).tx = s.tx := rfl
@[simp] theorem withTable_io (tt : TimingTable) : (s.withTable tt).io = s.io := rfl
@[simp] theorem withTable_ports (tt : TimingTable) : (s.withTable tt).ports = s.ports := rfl
@[simp] theorem withTable_tick (tt : TimingTable) : (s.withTable tt).tick = s.tick := rfl
@[simp] theorem withTable_held (tt : TimingTable) : (s.withTable tt).held = s.held := rfl
@[simp] theorem withTable_inbox (tt : TimingTable) : (s.withTable tt).inbox = s.inbox := rfl
@[simp] theorem withTable_trace (tt : TimingTable) : (s.withTable tt).trace = s.trace := rfl
@[simp] theorem withTable_choices (tt : TimingTable) : (s.withTable tt).choices = s.choices := rfl

/-! ### `withHeld` -/

@[simp] theorem withHeld_cfg (rs : List TxRequest) : (s.withHeld rs).cfg = s.cfg := rfl
@[simp] theorem withHeld_tt (rs : List TxRequest) : (s.withHeld rs).tt = s.tt := rfl
@[simp] theorem withHeld_rx (rs : List TxRequest) : (s.withHeld rs).rx = s.rx := rfl
@[simp] theorem withHeld_tx (rs : List TxRequest) : (s.withHeld rs).tx = s.tx := rfl
@[simp] theorem withHeld_io (rs : List TxRequest) : (s.withHeld rs).io = s.io := rfl
@[simp] theorem withHeld_ports (rs : List TxRequest) : (s.withHeld rs).ports = s.ports := rfl
@[simp] theorem withHeld_tick (rs : List TxRequest) : (s.withHeld rs).tick = s.tick := rfl
@[simp] theorem withHeld_held (rs : List TxRequest) : (s.withHeld rs).held = rs := rfl
@[simp] theorem withHeld_inbox (rs : List TxRequest) : (s.withHeld rs).inbox = s.inbox := rfl
@[simp] theorem withHeld_trace (rs : List TxRequest) : (s.withHeld rs).trace = s.trace := rfl
@[simp] theorem withHeld_choices (rs : List TxRequest) : (s.withHeld rs).choices = s.choices := rfl

/-! ### `withInbox` -/

@[simp] theorem withInbox_cfg (as : List Arrival) : (s.withInbox as).cfg = s.cfg := rfl
@[simp] theorem withInbox_tt (as : List Arrival) : (s.withInbox as).tt = s.tt := rfl
@[simp] theorem withInbox_rx (as : List Arrival) : (s.withInbox as).rx = s.rx := rfl
@[simp] theorem withInbox_tx (as : List Arrival) : (s.withInbox as).tx = s.tx := rfl
@[simp] theorem withInbox_io (as : List Arrival) : (s.withInbox as).io = s.io := rfl
@[simp] theorem withInbox_ports (as : List Arrival) : (s.withInbox as).ports = s.ports := rfl
@[simp] theorem withInbox_tick (as : List Arrival) : (s.withInbox as).tick = s.tick := rfl
@[simp] theorem withInbox_held (as : List Arrival) : (s.withInbox as).held = s.held := rfl
@[simp] theorem withInbox_inbox (as : List Arrival) : (s.withInbox as).inbox = as := rfl
@[simp] theorem withInbox_trace (as : List Arrival) : (s.withInbox as).trace = s.trace := rfl
@[simp] theorem withInbox_choices (as : List Arrival) : (s.withInbox as).choices = s.choices := rfl

/-! ### `drawn` -/

@[simp] theorem drawn_cfg : (s.drawn).cfg = s.cfg := rfl
@[simp] theorem drawn_tt : (s.drawn).tt = s.tt := rfl
@[simp] theorem drawn_rx : (s.drawn).rx = s.rx := rfl
@[simp] theorem drawn_tx : (s.drawn).tx = s.tx := rfl
@[simp] theorem drawn_io : (s.drawn).io = s.io := rfl
@[simp] theorem drawn_ports : (s.drawn).ports = s.ports := rfl
@[simp] theorem drawn_tick : (s.drawn).tick = s.tick := rfl
@[simp] theorem drawn_held : (s.drawn).held = s.held := rfl
@[simp] theorem drawn_inbox : (s.drawn).inbox = s.inbox := rfl
@[simp] theorem drawn_trace : (s.drawn).trace = s.trace := rfl
@[simp] theorem drawn_choices : (s.drawn).choices = s.choices + 1 := rfl

/-! ### `emit` -/

@[simp] theorem emit_cfg (o : Output) : (s.emit o).cfg = s.cfg := rfl
@[simp] theorem emit_tt (o : Output) : (s.emit o).tt = s.tt := rfl
@[simp] theorem emit_rx (o : Output) : (s.emit o).rx = s.rx := rfl
@[simp] theorem emit_tx (o : Output) : (s.emit o).tx = s.tx := rfl
@[simp] theorem emit_io (o : Output) : (s.emit o).io = s.io := rfl
@[simp] theorem emit_ports (o : Output) : (s.emit o).ports = s.ports := rfl
@[simp] theorem emit_tick (o : Output) : (s.emit o).tick = s.tick := rfl
@[simp] theorem emit_held (o : Output) : (s.emit o).held = s.held := rfl
@[simp] theorem emit_inbox (o : Output) : (s.emit o).inbox = s.inbox := rfl
@[simp] theorem emit_trace (o : Output) : (s.emit o).trace = (s.tick, o) :: s.trace := rfl
@[simp] theorem emit_choices (o : Output) : (s.emit o).choices = s.choices := rfl

/-! ### `setOutputLevel` -/

@[simp] theorem setOutputLevel_cfg (l : Level) : (s.setOutputLevel l).cfg = s.cfg := rfl
@[simp] theorem setOutputLevel_tt (l : Level) : (s.setOutputLevel l).tt = s.tt := rfl
@[simp] theorem setOutputLevel_rx (l : Level) : (s.setOutputLevel l).rx = s.rx := rfl
@[simp] theorem setOutputLevel_tx (l : Level) : (s.setOutputLevel l).tx = s.tx := rfl
@[simp] theorem setOutputLevel_io (l : Level) :
    (s.setOutputLevel l).io = { s.io with outLevel := l } := rfl
@[simp] theorem setOutputLevel_ports (l : Level) : (s.setOutputLevel l).ports = s.ports := rfl
@[simp] theorem setOutputLevel_tick (l : Level) : (s.setOutputLevel l).tick = s.tick := rfl
@[simp] theorem setOutputLevel_held (l : Level) : (s.setOutputLevel l).held = s.held := rfl
@[simp] theorem setOutputLevel_inbox (l : Level) : (s.setOutputLevel l).inbox = s.inbox := rfl
@[simp] theorem setOutputLevel_trace (l : Level) :
    (s.setOutputLevel l).trace = (s.tick, .setOutputLevel l) :: s.trace := rfl
@[simp] theorem setOutputLevel_choices (l : Level) : (s.setOutputLevel l).choices = s.choices := rfl

/-! ### `enableDetection` -/

@[simp] theorem enableDetection_cfg : (s.enableDetection).cfg = s.cfg := rfl
@[simp] theorem enableDetection_tt : (s.enableDetection).tt = s.tt := rfl
@[simp] theorem enableDetection_rx : (s.enableDetection).rx = s.rx := rfl
@[simp] theorem enableDetection_tx :
    (s.enableDetection).tx = { s.tx with result := s.io.enableResult } := rfl
@[simp] theorem enableDetection_io : (s.enableDetection).io = enabledIo s.io := rfl
@[simp] theorem enableDetection_ports : (s.enableDetection).ports = s.ports := rfl
@[simp] theorem enableDetection_tick : (s.enableDetection).tick = s.tick := rfl
@[simp] theorem enableDetection_held : (s.enableDetection).held = s.held := rfl
@[simp] theorem enableDetection_inbox : (s.enableDetection).inbox = s.inbox := rfl
@[simp] theorem enableDetection_trace :
    (s.enableDetection).trace = (s.tick, .enableInputEdgeDetection s.io.enableResult) :: s.trace := rfl
@[simp] theorem enableDetection_choices : (s.enableDetection).choices = s.choices := rfl

/-! ### `passTick` -/

@[simp] theorem passTick_cfg : (s.passTick).cfg = s.cfg := rfl
@[simp] theorem passTick_tt : (s.passTick).tt = s.tt := rfl
@[simp] theorem passTick_rx : (s.passTick).rx = s.rx := rfl
@[simp] theorem passTick_tx : (s.passTick).tx = { s.tx with timer := s.tx.timer - 1 } := rfl
@[simp] theorem passTick_io : (s.passTick).io = s.io := rfl
@[simp] theorem passTick_ports : (s.passTick).ports = s.ports := rfl
@[simp] theorem passTick_tick : (s.passTick).tick = (s.tick + 1) % 2 ^ s.cfg.tickW := rfl
@[simp] theorem passTick_held : (s.passTick).held = s.held := rfl
@[simp] theorem passTick_inbox : (s.passTick).inbox = sooner s.inbox := rfl
@[simp] theorem passTick_trace : (s.passTick).trace = s.trace := rfl
@[simp] theorem passTick_choices : (s.passTick).choices = s.choices := rfl

/-! ### `takeEdge` -/

@[simp] theorem takeEdge_cfg (k : IntervalClass) : (s.takeEdge k).cfg = s.cfg := rfl
@[simp] theorem takeEdge_tt (k : IntervalClass) : (s.takeEdge k).tt = s.tt := rfl
@[simp] theorem takeEdge_rx (k : IntervalClass) :
    (s.takeEdge k).rx = edgeOfClass s.cfg k s.ports.now s.rx := rfl
@[simp] theorem takeEdge_tx (k : IntervalClass) : (s.takeEdge k).tx = s.tx := rfl
@[simp] theorem takeEdge_io (k : IntervalClass) : (s.takeEdge k).io = s.io := rfl
@[simp] theorem takeEdge_ports (k : IntervalClass) : (s.takeEdge k).ports = s.ports := rfl
@[simp] theorem takeEdge_tick (k : IntervalClass) : (s.takeEdge k).tick = s.tick := rfl
@[simp] theorem takeEdge_held (k : IntervalClass) : (s.takeEdge k).held = s.held := rfl
@[simp] theorem takeEdge_inbox (k : IntervalClass) : (s.takeEdge k).inbox = s.inbox := rfl
@[simp] theorem takeEdge_trace (k : IntervalClass) : (s.takeEdge k).trace = s.trace := rfl
@[simp] theorem takeEdge_choices (k : IntervalClass) : (s.takeEdge k).choices = s.choices := rfl

/-! ### `takeEdges` -/

@[simp] theorem takeEdges_cfg (tt : TimingTable) (ns : List Nat) :
    (s.takeEdges tt ns).cfg = s.cfg := rfl
@[simp] theorem takeEdges_tt (tt : TimingTable) (ns : List Nat) :
    (s.takeEdges tt ns).tt = s.tt := rfl
@[simp] theorem takeEdges_rx (tt : TimingTable) (ns : List Nat) :
    (s.takeEdges tt ns).rx = ns.foldl (edgeStep s.cfg tt) s.rx := rfl
@[simp] theorem takeEdges_tx (tt : TimingTable) (ns : List Nat) :
    (s.takeEdges tt ns).tx = s.tx := rfl
@[simp] theorem takeEdges_io (tt : TimingTable) (ns : List Nat) :
    (s.takeEdges tt ns).io = s.io := rfl
@[simp] theorem takeEdges_ports (tt : TimingTable) (ns : List Nat) :
    (s.takeEdges tt ns).ports = s.ports := rfl
@[simp] theorem takeEdges_tick (tt : TimingTable) (ns : List Nat) :
    (s.takeEdges tt ns).tick = s.tick := rfl
@[simp] theorem takeEdges_held (tt : TimingTable) (ns : List Nat) :
    (s.takeEdges tt ns).held = s.held := rfl
@[simp] theorem takeEdges_inbox (tt : TimingTable) (ns : List Nat) :
    (s.takeEdges tt ns).inbox = s.inbox := rfl
@[simp] theorem takeEdges_trace (tt : TimingTable) (ns : List Nat) :
    (s.takeEdges tt ns).trace = s.trace := rfl
@[simp] theorem takeEdges_choices (tt : TimingTable) (ns : List Nat) :
    (s.takeEdges tt ns).choices = s.choices := rfl

end Sys2Proof.Machine.State
end

