-- ==== Sys2Proof/Laws/Ops.lean ====
section
/-!
SUPPORT. For each shared operation over the state, what it can do: "if it answers `next t`, then
…". Later proofs cite these and do not unfold the operations.
-/

namespace Sys2Proof.Machine

open State

variable {s t : State}

/-! ### The table -/

theorem needTable_of_some {tt : TimingTable} {k : TimingTable → Answer} (h : s.tt = some tt) :
    s.needTable k = k tt := by
  simp [needTable, h]

theorem needTable_of_none {k : TimingTable → Answer} (h : s.tt = none) :
    s.needTable k = .refused .notConfigured := by
  simp [needTable, h]

theorem needTable_next {k : TimingTable → Answer} (h : s.needTable k = .next t) :
    ∃ tt, s.tt = some tt ∧ k tt = .next t := by
  unfold needTable at h
  split at h
  · next tt heq => exact ⟨tt, heq, h⟩
  · cases h

/-! ### The transmit sequencer -/

/-- What no move of the transmit agent changes. -/
structure TransmitFrame (s t : State) : Prop where
  cfg : t.cfg = s.cfg
  tt : t.tt = s.tt
  rx : t.rx = s.rx
  ports : t.ports = s.ports
  inLevel : t.io.inLevel = s.io.inLevel
  disableResult : t.io.disableResult = s.io.disableResult
  enableResult : t.io.enableResult = s.io.enableResult

theorem TransmitFrame.trans {s t u : State} (h : TransmitFrame s t) (k : TransmitFrame t u) :
    TransmitFrame s u :=
  ⟨k.cfg.trans h.cfg, k.tt.trans h.tt, k.rx.trans h.rx, k.ports.trans h.ports,
    k.inLevel.trans h.inLevel, k.disableResult.trans h.disableResult,
    k.enableResult.trans h.enableResult⟩

/-- What making one call changes in the sequencer's own registers: at most the result. -/
structure CallFrame (s t : State) : Prop extends TransmitFrame s t where
  tick : t.tick = s.tick
  held : t.held = s.held
  inbox : t.inbox = s.inbox
  choices : t.choices = s.choices
  tx : t.tx = s.tx ∨ t.tx = { s.tx with result := s.io.enableResult }

/-- A call of an element changes the line, edge detection, the trace and at most the latched
result. -/
theorem act_frame {a : Action} (h : s.act a = .next t) : CallFrame s t := by
  cases a with
  | disable =>
    simp only [act, disableDetection] at h
    split at h
    · cases h
      exact ⟨⟨rfl, rfl, rfl, rfl, rfl, rfl, rfl⟩, rfl, rfl, rfl, rfl, .inl rfl⟩
    · cases h
  | drive l =>
    cases h
    exact ⟨⟨rfl, rfl, rfl, rfl, rfl, rfl, rfl⟩, rfl, rfl, rfl, rfl, .inl rfl⟩
  | enable =>
    cases h
    exact ⟨⟨rfl, rfl, rfl, rfl, rfl, rfl, rfl⟩, rfl, rfl, rfl, rfl, .inr rfl⟩

/-- Entering element `k`: either it exists and is entered, or the operation has ended. -/
theorem enterElement_cases {tt : TimingTable} {k : Nat} (h : s.enterElement tt k = .next t) :
    (∃ e, (scheduleOf tt s.request)[k]? = some e ∧
      (s.withTx { s.tx with step := k, timer := e.wait }).act e.action = .next t) ∨
    ((scheduleOf tt s.request)[k]? = none ∧ t = s.finish) := by
  unfold enterElement at h
  split at h
  · next e he => exact .inl ⟨e, he, h⟩
  · next he => cases h; exact .inr ⟨he, rfl⟩

/-- When an operation ends the sequencer is at rest, and only the trace tells more. -/
theorem finish_eq (s : State) :
    s.finish =
      { s with
        tx := { s.tx with busy := false, step := 0, timer := 0 }
        trace := (if s.tx.op = .transfer then [(s.tick, Output.result s.tx.result)] else []) ++
          s.trace } := by
  unfold finish
  split <;> rfl

theorem finish_frame (s : State) : TransmitFrame s s.finish := by
  rw [finish_eq]
  exact ⟨rfl, rfl, rfl, rfl, rfl, rfl, rfl⟩

theorem enterElement_frame {tt : TimingTable} {k : Nat} (h : s.enterElement tt k = .next t) :
    TransmitFrame s t := by
  obtain ⟨e, _, he⟩ | ⟨_, rfl⟩ := enterElement_cases h
  · have hf := (act_frame he).toTransmitFrame
    exact ⟨hf.cfg, hf.tt, hf.rx, hf.ports, hf.inLevel, hf.disableResult, hf.enableResult⟩
  · exact finish_frame s

theorem begin_frame {tt : TimingTable} {r : TxRequest} (h : s.begin tt r = .next t) :
    TransmitFrame s t := by
  have hf := enterElement_frame h
  exact ⟨hf.cfg, hf.tt, hf.rx, hf.ports, hf.inLevel, hf.disableResult, hf.enableResult⟩

/-- A request is taken when the sequencer is free and none waits, and held otherwise (R106). -/
theorem submit_cases {r : TxRequest} (h : s.submit r = .next t) :
    ∃ tt, s.tt = some tt ∧
      ((s.tx.busy = false ∧ s.held = [] ∧ s.begin tt r = .next t) ∨
       (¬ (s.tx.busy = false ∧ s.held = []) ∧ t = s.withHeld (s.held ++ [r]))) := by
  obtain ⟨tt, htt, h⟩ := needTable_next h
  refine ⟨tt, htt, ?_⟩
  split at h
  · next hb =>
    cases h
    refine .inr ⟨?_, rfl⟩
    rintro ⟨h1, h2⟩
    simp [h1, h2] at hb
  · next hb =>
    simp only [Bool.or_eq_true, Bool.not_eq_true', not_or, Bool.not_eq_true,
      Bool.not_eq_false] at hb
    exact .inl ⟨hb.1, List.isEmpty_iff.1 hb.2, h⟩

theorem submit_of_free {tt : TimingTable} {r : TxRequest} (htt : s.tt = some tt)
    (hb : s.tx.busy = false) (hh : s.held = []) : s.submit r = s.begin tt r := by
  simp [submit, needTable_of_some htt, hb, hh]

theorem submit_of_not_free {r : TxRequest} (htt : s.tt ≠ none)
    (h : ¬ (s.tx.busy = false ∧ s.held = [])) :
    s.submit r = .next (s.withHeld (s.held ++ [r])) := by
  obtain ⟨tt, htt⟩ := Option.ne_none_iff_exists'.1 htt
  have : (s.tx.busy || !s.held.isEmpty) = true := by
    by_contra hc
    simp only [Bool.or_eq_true, Bool.not_eq_true', not_or, Bool.not_eq_true,
      Bool.not_eq_false] at hc
    exact h ⟨hc.1, List.isEmpty_iff.1 hc.2⟩
  simp [submit, needTable_of_some htt, this]

theorem submit_frame {r : TxRequest} (h : s.submit r = .next t) : TransmitFrame s t := by
  obtain ⟨tt, _, ⟨_, _, h⟩ | ⟨_, rfl⟩⟩ := submit_cases h
  · exact begin_frame h
  · exact ⟨rfl, rfl, rfl, rfl, rfl, rfl, rfl⟩

/-! ### The moves of the transmit agent and of time -/

/-- Serving the held requests goes on without one, or takes one. -/
theorem serveHeld_cases {k : State → Answer} (h : s.serveHeld k = .next t) :
    k s.drawn = .next t ∨
    ∃ j r tt, s.held[j]? = some r ∧ s.tt = some tt ∧
      (s.drawn.withHeld (s.held.eraseIdx j)).begin tt r = .next t := by
  unfold serveHeld at h
  simp only at h
  split at h
  · next r hr =>
    obtain ⟨tt, htt, h⟩ := needTable_next h
    exact .inr ⟨_, r, tt, hr, htt, h⟩
  · exact .inl h

/-- What a move does when no input is due: a tick passes, an element is entered, or a held request
is served. -/
theorem advance_cases (h : s.advance = .next t) :
    (s.tx.busy = true ∧ s.tx.timer ≠ 0 ∧ t = s.passTick) ∨
    (s.tx.busy = true ∧ s.tx.timer = 0 ∧
      ∃ tt, s.tt = some tt ∧ s.enterElement tt (s.tx.step + 1) = .next t) ∨
    (s.tx.busy = false ∧ s.held = [] ∧ t = s.passTick) ∨
    (s.tx.busy = false ∧ s.held ≠ [] ∧ t = s.drawn.passTick) ∨
    (s.tx.busy = false ∧ ∃ k r tt, s.held[k]? = some r ∧ s.tt = some tt ∧
      (s.drawn.withHeld (s.held.eraseIdx k)).begin tt r = .next t) := by
  unfold advance sequencerMove at h
  split at h
  · next hb =>
    split at h
    · next h0 =>
      obtain ⟨tt, htt, h⟩ := needTable_next h
      exact .inr (.inl ⟨hb, h0, tt, htt, h⟩)
    · next h0 => cases h; exact .inl ⟨hb, h0, rfl⟩
  · next hb =>
    have hb : s.tx.busy = false := by simpa using hb
    split at h
    · next he => cases h; exact .inr (.inr (.inl ⟨hb, List.isEmpty_iff.1 he, rfl⟩))
    · next he =>
      obtain h | ⟨k, r, tt, hr, htt, h⟩ := serveHeld_cases h
      · cases h
        exact .inr (.inr (.inr (.inl ⟨hb, by simpa using he, rfl⟩)))
      · exact .inr (.inr (.inr (.inr ⟨hb, k, r, tt, hr, htt, h⟩)))

theorem passTick_frame (s : State) : TransmitFrame s s.passTick :=
  ⟨rfl, rfl, rfl, rfl, rfl, rfl, rfl⟩

theorem advance_frame (h : s.advance = .next t) : TransmitFrame s t := by
  obtain ⟨_, _, rfl⟩ | ⟨_, _, tt, _, h⟩ | ⟨_, _, rfl⟩ | ⟨_, _, rfl⟩ | ⟨_, k, r, tt, _, _, h⟩ :=
    advance_cases h
  · exact passTick_frame s
  · exact enterElement_frame h
  · exact passTick_frame s
  · exact ⟨rfl, rfl, rfl, rfl, rfl, rfl, rfl⟩
  · have hf := begin_frame h
    exact ⟨hf.cfg, hf.tt, hf.rx, hf.ports, hf.inLevel, hf.disableResult, hf.enableResult⟩

/-! ### The operations -/

/-- The five shapes an operation can have: it fills the table, reads the status, delivers edges, or
hands a request to the sequencer; the reserved code answers no next state. -/
theorem exec_cases {i : Instr} (h : exec i s = .next t) :
    (i = .configure ∧ s.tt = none ∧ s.ports.tickHz ≠ 0 ∧
      t = s.withTable (configuredTable s.cfg s.ports.tickHz)) ∨
    (i = .readStatus ∧
      t = (s.withRx (readClears s.cfg s.rx)).emit
        (.status s.rx.frameReady (statusBits s.rx))) ∨
    (∃ tt, s.tt = some tt ∧
      (i = .onEdge ∨ (i = .onEdgeReset ∧ s.edgeClass tt = .reset) ∨
        (i = .onEdgeLong ∧ s.edgeClass tt = .long) ∨
        (i = .onEdgeShort ∧ s.edgeClass tt = .short)) ∧
      t = s.takeEdge (s.edgeClass tt)) ∨
    (∃ tt d, s.tt = some tt ∧ i = .frameRx d ∧
      t = s.takeEdges tt (frameEdges tt d s.ports.now)) ∨
    (i.isEdgeEvent = false ∧ ∃ r, s.submit r = .next t) := by
  cases i with
  | configure =>
    simp only [exec, execConfigure] at h
    split at h
    · cases h
    · next htt =>
      split at h
      · cases h
      · next hz => cases h; exact .inl ⟨rfl, htt, hz, rfl⟩
  | readStatus => cases h; exact .inr (.inl ⟨rfl, rfl⟩)
  | onEdge =>
    obtain ⟨tt, htt, h⟩ := needTable_next h
    cases h
    exact .inr (.inr (.inl ⟨tt, htt, .inl rfl, rfl⟩))
  | onEdgeReset =>
    obtain ⟨tt, htt, h⟩ := needTable_next h
    split at h
    · next hk =>
      cases h
      exact .inr (.inr (.inl ⟨tt, htt, .inr (.inl ⟨rfl, hk⟩), by rw [hk]⟩))
    · cases h
  | onEdgeLong =>
    obtain ⟨tt, htt, h⟩ := needTable_next h
    split at h
    · next hk =>
      cases h
      exact .inr (.inr (.inl ⟨tt, htt, .inr (.inr (.inl ⟨rfl, hk⟩)), by rw [hk]⟩))
    · cases h
  | onEdgeShort =>
    obtain ⟨tt, htt, h⟩ := needTable_next h
    split at h
    · next hk =>
      cases h
      exact .inr (.inr (.inl ⟨tt, htt, .inr (.inr (.inr ⟨rfl, hk⟩)), by rw [hk]⟩))
    · cases h
  | frameRx d =>
    obtain ⟨tt, htt, h⟩ := needTable_next h
    cases h
    exact .inr (.inr (.inr (.inl ⟨tt, d, htt, rfl, rfl⟩)))
  | reserved111 => cases h
  | emitBit b => exact .inr (.inr (.inr (.inr ⟨rfl, _, h⟩)))
  | emitByte v => exact .inr (.inr (.inr (.inr ⟨rfl, _, h⟩)))
  | emitIdle => exact .inr (.inr (.inr (.inr ⟨rfl, _, h⟩)))
  | transfer a d => exact .inr (.inr (.inr (.inr ⟨rfl, _, h⟩)))
  | symBit0 => exact .inr (.inr (.inr (.inr ⟨rfl, _, h⟩)))
  | symBit1 => exact .inr (.inr (.inr (.inr ⟨rfl, _, h⟩)))
  | symIdle => exact .inr (.inr (.inr (.inr ⟨rfl, _, h⟩)))
  | frameTx a d => exact .inr (.inr (.inr (.inr ⟨rfl, _, h⟩)))

/-! ### Delivery and the move -/

/-- A decoded operation is dropped, or run. -/
theorem deliverInstr_cases {i : Instr} (h : s.deliverInstr i = .next t) :
    (i.isEdgeEvent = true ∧ s.io.edgeDetect = false ∧ t = s) ∨
    ((i.isEdgeEvent = false ∨ s.tt = none ∨ s.io.edgeDetect = true) ∧ exec i s = .next t) := by
  unfold deliverInstr dropsEdges at h
  split at h
  · next hd =>
    cases h
    simp only [Bool.and_eq_true, Bool.not_eq_true'] at hd
    exact .inl ⟨hd.1, hd.2.2, rfl⟩
  · next hd =>
    refine .inr ⟨?_, h⟩
    cases hi : i.isEdgeEvent <;> cases he : s.io.edgeDetect <;> cases ht : s.tt <;>
      simp_all

theorem deliverEncoding_cases {e : Encoding} (h : s.deliverEncoding e = .next t) :
    ∃ i, decode e = .ok i ∧ s.deliverInstr i = .next t := by
  unfold deliverEncoding at h
  split at h
  · next i hi => exact ⟨i, hi, h⟩
  · cases h

/-- What an input does when it arrives. -/
theorem deliver_cases {a : Input} (h : s.deliver a = .next t) :
    (∃ i, s.deliverInstr i = .next t) ∨
    (∃ p, t = s.withPorts p ∧ (p.now = s.ports.now ∨ p.now < 2 ^ s.cfg.tickW)) ∨
    (∃ l, s.io.edgeDetect = true ∧
      exec .onEdge ((s.withIo { s.io with inLevel := l }).withPorts
        { s.ports with now := s.tick }) = .next t) ∨
    (∃ io, t = s.withIo io ∧ io.outLevel = s.io.outLevel ∧
      ((io.disableResult = s.io.disableResult ∧ io.enableResult = s.io.enableResult) ∨
        ∃ d e, io.disableResult = resultCode s.cfg d ∧
          io.enableResult = resultCode s.cfg e)) := by
  cases a with
  | command w =>
    obtain ⟨i, _, hi⟩ := deliverEncoding_cases (s := s) (e := .command w) h
    exact .inl ⟨i, hi⟩
  | line bits =>
    obtain ⟨i, _, hi⟩ := deliverEncoding_cases (s := s) (e := .line bits) h
    exact .inl ⟨i, hi⟩
  | configurePort hz => cases h; exact .inr (.inl ⟨_, rfl, .inl rfl⟩)
  | edgePort now =>
    cases h
    exact .inr (.inl ⟨_, rfl, .inr (Nat.mod_lt _ (Nat.two_pow_pos _))⟩)
  | lineIn l =>
    simp only [deliver, deliverLevel] at h
    split at h
    · cases h; exact .inr (.inr (.inr ⟨s.io, rfl, rfl, .inl ⟨rfl, rfl⟩⟩))
    · split at h
      · next hd => exact .inr (.inr (.inl ⟨l, hd, h⟩))
      · cases h; exact .inr (.inr (.inr ⟨_, rfl, rfl, .inl ⟨rfl, rfl⟩⟩))
  | hostEnable => cases h; exact .inr (.inr (.inr ⟨_, rfl, rfl, .inl ⟨rfl, rfl⟩⟩))
  | hostDisable =>
    simp only [deliver, hostDisable, Host.Outcome.next.injEq] at h
    subst h
    split
    · exact .inr (.inr (.inr ⟨_, rfl, rfl, .inl ⟨rfl, rfl⟩⟩))
    · exact .inr (.inr (.inr ⟨s.io, rfl, rfl, .inl ⟨rfl, rfl⟩⟩))
  | capabilityCodes d e =>
    cases h
    exact .inr (.inr (.inr ⟨_, rfl, rfl, .inr ⟨d, e, rfl, rfl⟩⟩))

/-- An input is due at its tick, unless it waits for a call or a held request. -/
theorem isDue_iff (a : Arrival) : s.isDue a = true ↔
    a.delay = 0 ∧ (a.afterCalls = true →
      (s.tx.busy = true → 0 < s.tx.timer) ∧ (s.tx.busy = false → s.held = [])) := by
  unfold isDue mayAct
  cases a.afterCalls <;> cases s.tx.busy <;> simp [Nat.pos_iff_ne_zero]

/-- A move delivers the next input at its tick, perhaps after finding that no held request starts;
or starts a held request before it; or advances the machine. -/
theorem move_cases (h : s.move = .next t) :
    (∃ a as, s.inbox = a :: as ∧ a.delay = 0 ∧
      ((s.withInbox as).deliver a.input = .next t ∨
        (s.tx.busy = false ∧ (s.drawn.withInbox as).deliver a.input = .next t))) ∨
    (s.tx.busy = false ∧ ∃ k r tt, s.held[k]? = some r ∧ s.tt = some tt ∧
      (s.drawn.withHeld (s.held.eraseIdx k)).begin tt r = .next t) ∨
    s.advance = .next t := by
  unfold move at h
  split at h
  · exact .inr (.inr h)
  · next a as ha =>
    split at h
    · next hd => exact .inl ⟨a, as, ha, ((isDue_iff a).1 hd).1, .inl h⟩
    · split at h
      · next hw =>
        obtain h | hb := serveHeld_cases h
        · exact .inl ⟨a, as, ha, hw.1, .inr ⟨hw.2, h⟩⟩
        · exact .inr (.inl ⟨hw.2, hb⟩)
      · exact .inr (.inr h)

/-- With the next input due, the step delivers it. -/
theorem move_of_due {a : Arrival} {as : List Arrival} (ha : s.inbox = a :: as)
    (hd : s.isDue a = true) : s.move = (s.withInbox as).deliver a.input := by
  unfold move
  rw [ha]
  simp only [hd, if_true]

/-- With no input at its tick, the step advances the machine. -/
theorem move_of_later (h : ∀ a as, s.inbox = a :: as → 0 < a.delay) : s.move = s.advance := by
  unfold move
  split
  · rfl
  · next a as ha =>
    have h0 : a.delay ≠ 0 := Nat.pos_iff_ne_zero.1 (h a as ha)
    rw [if_neg (fun hd => h0 ((isDue_iff a).1 hd).1), if_neg (fun hw => h0 hw.1)]

end Sys2Proof.Machine
end

