-- ==== Sys2Proof/Laws/PerInstr.lean ====
section
/-!
SUPPORT. Per operation: the encoder's command word against the match and mask of the operation's
row in spec/opcode_table.json, and the ignored bits it writes as 0 (R53).
-/

namespace Sys2Proof.Laws.TableMatch

/-- The `match` column of the operation's row; the line formats have none. -/
def tableMatch : Instr → CmdWord
  | .configure => 0x00000
  | .emitBit _ => 0x10000
  | .emitByte _ => 0x20000
  | .emitIdle => 0x30000
  | .transfer _ _ => 0x40000
  | .onEdge | .onEdgeReset | .onEdgeLong | .onEdgeShort => 0x50000
  | .readStatus => 0x60000
  | .reserved111 => 0x70000
  | .symBit0 | .symBit1 | .symIdle | .frameTx _ _ | .frameRx _ => 0

/-- The operand bits an operation uses (R53). -/
def operandMask : Instr → CmdWord
  | .emitBit _ => 0x00001
  | .emitByte _ => 0x000FF
  | .transfer _ _ => 0x0FFFF
  | _ => 0

/-- A command word of the encoder has the row's match under the mask `0x70000`, and no bit outside
the operation code and the operands it uses. -/
def Statement (i : Instr) : Prop :=
  ∀ w, encode i = .command w →
    w &&& 0x70000 = tableMatch i ∧ w &&& ~~~(0x70000 ||| operandMask i) = 0

/-- A word is in a row if it is the row's match, and lies within the mask and the operands. -/
theorem statement_of_word {i : Instr} {v : CmdWord} (h : encode i = .command v)
    (hm : v &&& 0x70000 = tableMatch i) (ho : v &&& ~~~(0x70000 ||| operandMask i) = 0) :
    Statement i := by
  intro w hw
  cases h.symm.trans hw
  exact ⟨hm, ho⟩

/-- A line format has no command word. -/
theorem statement_of_line {i : Instr} {bs : List Level} (h : encode i = .line bs) :
    Statement i := by
  intro w hw
  cases h.symm.trans hw

theorem configure : Statement .configure := statement_of_word rfl (by decide) (by decide)

theorem emitBit (b : Level) : Statement (.emitBit b) := by
  cases b <;> exact statement_of_word rfl (by decide) (by decide)

theorem emitByte (v : Byte) : Statement (.emitByte v) := by
  refine statement_of_word rfl ?_ ?_ <;> revert v <;> decide

theorem emitIdle : Statement .emitIdle := statement_of_word rfl (by decide) (by decide)

/-- The bits above the operands of a `TRANSFER` word are its operation code. -/
theorem commandWord_high (op : BitVec 3) (a d : Byte) :
    commandWord op a d &&& 0x70000 = commandWord op 0 0 := by
  have bit (a d : Byte) (k : Nat) : (commandWord op a d).getLsbD k =
      if k < 8 then d.getLsbD k else if k - 8 < 8 then a.getLsbD (k - 8)
      else op.getLsbD (k - 8 - 8) := by
    simp only [commandWord]
    exact (BitVec.getLsbD_append ..).trans (by rw [BitVec.getLsbD_append])
  apply BitVec.eq_of_getLsbD_eq
  intro k hk
  rw [BitVec.getLsbD_and, bit a d, bit 0 0]
  interval_cases k <;> simp

theorem transfer (a d : Byte) : Statement (.transfer a d) := by
  refine statement_of_word rfl (commandWord_high 0b100 a d) ?_
  have h : ~~~((0x70000 : CmdWord) ||| operandMask (.transfer a d)) = 0 := by
    simp only [operandMask]; decide
  rw [h]
  exact BitVec.and_zero

theorem onEdge : Statement .onEdge := statement_of_word rfl (by decide) (by decide)

theorem onEdgeReset : Statement .onEdgeReset := statement_of_word rfl (by decide) (by decide)

theorem onEdgeLong : Statement .onEdgeLong := statement_of_word rfl (by decide) (by decide)

theorem onEdgeShort : Statement .onEdgeShort := statement_of_word rfl (by decide) (by decide)

theorem readStatus : Statement .readStatus := statement_of_word rfl (by decide) (by decide)

theorem reserved111 : Statement .reserved111 := statement_of_word rfl (by decide) (by decide)

theorem symBit0 : Statement .symBit0 := statement_of_line rfl

theorem symBit1 : Statement .symBit1 := statement_of_line rfl

theorem symIdle : Statement .symIdle := statement_of_line rfl

theorem frameTx (a d : Byte) : Statement (.frameTx a d) := statement_of_line rfl

theorem frameRx (d : Byte) : Statement (.frameRx d) := statement_of_line rfl

end Sys2Proof.Laws.TableMatch
end

