-- ==== Sys2Proof/Laws/Receiver.lean ====
section
/-!
SUPPORT. What the receive step's parts do to each register of the ReceiverState.
-/

namespace Sys2Proof.Machine

variable (c : Config) (rx : ReceiverState) (now : Nat)

/-! ### The frame-ready test -/

/-- The test changes the flag and nothing else, and only sets it (R84). -/
theorem frameReadyTest_eq :
    frameReadyTest rx =
      { rx with frameReady := rx.frameReady || decide (17 ≤ rx.halfBitCount) } := by
  unfold frameReadyTest
  split
  · next h => simp [show 17 ≤ rx.halfBitCount from h]
  · next h => simp [show ¬ 17 ≤ rx.halfBitCount from h]

@[simp] theorem frameReadyTest_lastEdgeTimestamp :
    (frameReadyTest rx).lastEdgeTimestamp = rx.lastEdgeTimestamp := by rw [frameReadyTest_eq]

@[simp] theorem frameReadyTest_accumulatedBits :
    (frameReadyTest rx).accumulatedBits = rx.accumulatedBits := by rw [frameReadyTest_eq]

@[simp] theorem frameReadyTest_halfBitCount :
    (frameReadyTest rx).halfBitCount = rx.halfBitCount := by rw [frameReadyTest_eq]

@[simp] theorem frameReadyTest_lastDecodedBit :
    (frameReadyTest rx).lastDecodedBit = rx.lastDecodedBit := by rw [frameReadyTest_eq]

@[simp] theorem frameReadyTest_frameReady :
    (frameReadyTest rx).frameReady =
      (rx.frameReady || decide (17 ≤ rx.halfBitCount)) := by rw [frameReadyTest_eq]

/-! ### The timestamp -/

@[simp] theorem stampEdge_lastEdgeTimestamp :
    (stampEdge c now rx).lastEdgeTimestamp = now % 2 ^ c.tickW := rfl
@[simp] theorem stampEdge_accumulatedBits :
    (stampEdge c now rx).accumulatedBits = rx.accumulatedBits := rfl
@[simp] theorem stampEdge_halfBitCount :
    (stampEdge c now rx).halfBitCount = rx.halfBitCount := rfl
@[simp] theorem stampEdge_lastDecodedBit :
    (stampEdge c now rx).lastDecodedBit = rx.lastDecodedBit := rfl
@[simp] theorem stampEdge_frameReady : (stampEdge c now rx).frameReady = rx.frameReady := rfl

/-! ### Ranges -/

theorem commitBit_lt (b : Level) (acc : Nat) : commitBit c b acc < 2 ^ c.accW :=
  Nat.mod_lt _ (Nat.two_pow_pos _)

theorem countUp_lt (n count : Nat) : countUp c n count < 2 ^ c.cntW :=
  Nat.mod_lt _ (Nat.two_pow_pos _)

/-- Every class leaves the three wide registers in their ranges, if they were. -/
theorem edgeOfClass_ranges (k : IntervalClass) (ha : rx.accumulatedBits < 2 ^ c.accW) :
    (edgeOfClass c k now rx).lastEdgeTimestamp < 2 ^ c.tickW ∧
      (edgeOfClass c k now rx).accumulatedBits < 2 ^ c.accW ∧
      (edgeOfClass c k now rx).halfBitCount < 2 ^ c.cntW := by
  refine ⟨Nat.mod_lt _ (Nat.two_pow_pos _), ?_, ?_⟩ <;> cases k <;>
    simp only [edgeOfClass, stampEdge_accumulatedBits, stampEdge_halfBitCount,
      frameReadyTest_accumulatedBits, frameReadyTest_halfBitCount, classBody]
  · exact Nat.two_pow_pos _
  · exact commitBit_lt c _ _
  · simp only [shortBody]
    split
    · exact commitBit_lt c _ _
    · exact ha
  · exact Nat.two_pow_pos _
  · exact countUp_lt c _ _
  · exact countUp_lt c _ _

/-! ### The classes -/

/-- The three conditions of R49, read off the class. -/
theorem classify_spec (tt : TimingTable) (e : Nat) :
    (classify tt e = .reset ↔ tt.resetThreshold < e) ∧
      (classify tt e = .long ↔ tt.shortLongBoundary < e ∧ e ≤ tt.resetThreshold) ∧
      (classify tt e = .short ↔ e ≤ tt.shortLongBoundary ∧ e ≤ tt.resetThreshold) := by
  unfold classify
  split
  · next h => simp [h]
  · next h =>
    split
    · next h' => simp; omega
    · next h' => simp; omega

end Sys2Proof.Machine
end

