-- ==== Sys2Proof/Tests/Slice0.lean ====
section
/-!
SUPPORT. The model's own tests: the well-formedness checks on ill-formed operations, words written
out from the spec's encodings, one step of each operation on the vectors of 95_test_vectors.md,
and for every statement with hypotheses a state and operands that meet them together.
-/

namespace Sys2Proof.Tests

open Sys2Proof Sys2Proof.Machine

/-! ### Helpers -/

/-- The state an answer goes on with. -/
def after : Answer → Option State
  | .next s => some s
  | .fault _ => none
  | .refused _ => none

/-- The reason of a refusal. -/
def refusalOf : Answer → Option Refusal
  | .next _ => none
  | .fault _ => none
  | .refused r => some r

/-- Table T1 of 95_test_vectors.md section 0 (`TICK_HZ` = 1 000 000). -/
def tableT1 : TimingTable := ⟨417, 834, 625, 5500, 5500⟩

/-- Table T2 of 95_test_vectors.md section 0 (`TICK_HZ` = 32 768). -/
def tableT2 : TimingTable := ⟨14, 28, 21, 181, 181⟩

/-- A receiver written `(last, acc, count, bit, ready)` as in 95_test_vectors.md section 0. -/
def receiver (last acc count : Nat) (bit ready : Bool) : ReceiverState :=
  ⟨last, acc, count, bit, ready⟩

/-- The power-on state with a table. -/
def configured (tt : TimingTable) : State := State.reset.withTable tt

/-- The power-on state with table T1, a receiver, and a timestamp on the edge-event port. -/
def atEdge (rx : ReceiverState) (now : Nat) : State :=
  ((configured tableT1).withRx rx).withPorts { tickHz := 1000000, now := now }

/-- The configured power-on state with edge detection on. -/
def listening : State :=
  (configured tableT1).withIo { (configured tableT1).io with edgeDetect := true }

/-- The state with one input, due now. -/
def given (s : State) (i : Input) : State := s.withInbox [{ delay := 0, input := i }]

/-- The state after a `TRANSFER 0xA5, 0x3C` has begun on T1. -/
def sending : State :=
  (configured tableT1).withTx
    { busy := true, step := 0, timer := 0, frame := txFrame 0xA5 0x3C, result := 0,
      op := .transfer }

/-! ### Well-formedness: each check refuses an ill-formed operation -/

theorem test_ill_formed_class_rows :
    [Instr.onEdgeReset, .onEdgeLong, .onEdgeShort].map Instr.wellFormed = [false, false, false] := by
  decide

theorem test_ill_formed_reserved : Instr.reserved111.wellFormed = false := by decide

theorem test_well_formed_edge : Instr.onEdge.wellFormed = true := by decide

/-! ### Decoding: words written out bit by bit from R53, R45, R47, R48, R74 -/

theorem test_decode_configure : decodeCommand 0b0000000000000000000 = .configure := by decide

theorem test_decode_emitBit : decodeCommand 0b0010000000000000001 = .emitBit true := by decide

/-- The bits above bit 0 are ignored by `EMIT_BIT` (D12). -/
theorem test_decode_emitBit_ignored :
    decodeCommand 0b0011111111111111110 = .emitBit false := by decide

theorem test_decode_emitByte : decodeCommand 0b0100000000010100101 = .emitByte 0xA5 := by decide

theorem test_decode_emitIdle : decodeCommand 0b0110000000000000000 = .emitIdle := by decide

theorem test_decode_transfer :
    decodeCommand 0b1001010010100111100 = .transfer 0xA5 0x3C := by decide

theorem test_decode_onEdge : decodeCommand 0b1010000000000000000 = .onEdge := by decide

theorem test_decode_readStatus : decodeCommand 0b1100000000000000000 = .readStatus := by decide

theorem test_decode_reserved : decodeCommand 0b1110000000000000000 = .reserved111 := by decide

/-- In a row of the opcode table the symbol's first half is the more significant bit (R45). -/
theorem test_decode_symbols :
    [decodeTableWord 8 0b10, decodeTableWord 8 0b01, decodeTableWord 8 0b11] =
      [some .symBit0, some .symBit1, none] := by decide

theorem test_decode_idle : decodeTableWord 1 1 = some .symIdle := by decide

theorem test_decode_frameRx : decodeTableWord 16 0b110100101 = some (.frameRx 0xA5) := by decide

theorem test_decode_frameTx :
    decodeTableWord 17 0b11010010100111100 = some (.frameTx 0xA5 0x3C) := by decide

/-- The rows of the opcode table with 24 bits are command words. -/
theorem test_decode_table_word : decodeTableWord 24 0x4A53C = some (.transfer 0xA5 0x3C) := by
  decide

theorem test_encode_transfer : encode (.transfer 0xA5 0x3C) = .command 0x4A53C := by decide

theorem test_encode_frameTx :
    encode (.frameTx 0xA5 0x3C) = .line [true, true, false, true, false, false, true, false, true,
      false, false, true, true, true, true, false, false] := by decide

/-! ### One step of each operation -/

/-- V-CFG-1M. -/
theorem test_configure_1M : (after (exec .configure State.reset)).map State.tt =
    some (some tableT1) := by decide

/-- V-CFG-48M: a fraction however small is raised, and the full bit is not twice the half. -/
theorem test_configure_48M : configuredTable Config.standard 48000000 =
    ⟨20001, 40000, 30000, 264000, 264000⟩ := by decide

/-- V-TX-BIT1: the first call. -/
theorem test_emitBit_first_call : (after (exec (.emitBit true) (configured tableT1))).map
    (fun t => (t.trace, t.tx.timer, t.tx.busy)) =
      some ([(0, .setOutputLevel false)], 417, true) := by decide

/-- V-TX-BIT1: the second call, 417 ticks later, ends on the bit itself. -/
theorem test_emitBit_segments : segmentsOf tableT1 (bitRequest true) =
    [⟨false, 417⟩, ⟨true, 417⟩] := by decide

/-- V-TX-BYTE-A5. -/
theorem test_emitByte_levels : (segmentsOf tableT1 (byteRequest 0xA5)).map Segment.level =
    [false, true, true, false, false, true, true, false, true, false, false, true, true, false,
      false, true] := by decide

/-- V-TX-BYTE-00: the first call makes no edge on a line at 1. -/
theorem test_emitByte_first_call : (after (exec (.emitByte 0) (configured tableT1))).map
    (fun t => (t.trace, t.io.outLevel)) = some ([(0, .setOutputLevel true)], true) := by decide

/-- V-TX-IDLE1. -/
theorem test_emitIdle : (after (exec .emitIdle (configured tableT1))).map
    (fun t => (t.trace, t.tx.timer)) = some ([(0, .setOutputLevel true)], 5500) := by decide

/-- V-TX-A53C: step 0 of the schedule is the disable. -/
theorem test_transfer_first_call : (after (exec (.transfer 0xA5 0x3C) (configured tableT1))).map
    (fun t => (t.trace, t.tx.step, t.io.edgeDetect)) =
      some ([(0, .disableInputEdgeDetection 0)], 0, false) := by decide

/-- V-TX-A53C on T2: the ticks of the 26 edges. -/
theorem test_transfer_edges : edgeTicks (segmentsOf tableT2 (transferRequest 0xA5 0x3C)) 0 =
    [0, 14, 28, 42, 70, 98, 126, 140, 154, 182, 210, 238, 266, 280, 294, 322, 336, 350, 364, 378,
      392, 406, 434, 448, 462, 476] := by decide

/-- V-ST-10: the bit shifted out of bit 15 is lost, and the count of 17 sets the flag. -/
theorem test_onEdge_long : (after (exec .onEdge (atEdge (receiver 1000 0x8001 15 false false) 1834))).map
    State.rx = some (receiver 1834 0x0003 17 true true) := by decide

/-- V-ST-21: a `now` one tick before the last. -/
theorem test_onEdge_out_of_order :
    (after (exec .onEdge (atEdge (receiver 4294967040 1 1 true false) 4294967039))).map State.rx =
      some (receiver 4294967039 0 0 true false) := by decide

/-- V-ST-01: one tick above the reset threshold. -/
theorem test_onEdgeReset : (after (exec .onEdgeReset (atEdge (receiver 1000 0x01A5 17 true true) 6501))).map
    State.rx = some (receiver 6501 0 0 true false) := by decide

/-- V-ST-02: exactly the reset threshold is LONG, so the RESET row is not selected. -/
theorem test_onEdgeReset_not_selected :
    refusalOf (exec .onEdgeReset (atEdge (receiver 1000 0x01A5 17 true true) 6500)) =
      some .classNotSelected := by decide

/-- V-ST-02. -/
theorem test_onEdgeLong_at_reset_threshold :
    (after (exec .onEdgeLong (atEdge (receiver 1000 0x01A5 17 true true) 6500))).map State.rx =
      some (receiver 6500 0x034A 19 false true) := by decide

/-- V-ST-03. -/
theorem test_onEdgeLong_above_boundary :
    (after (exec .onEdgeLong (atEdge (receiver 1000 0x01A5 17 true true) 1626))).map State.rx =
      some (receiver 1626 0x034A 19 false true) := by decide

/-- V-ST-04: exactly the boundary is SHORT. -/
theorem test_onEdgeShort_at_boundary :
    (after (exec .onEdgeShort (atEdge (receiver 1000 0x01A5 17 true true) 1625))).map State.rx =
      some (receiver 1625 0x01A5 18 true true) := by decide

/-- V-ST-25: the count before its wrap. -/
theorem test_onEdgeShort_commits :
    (after (exec .onEdgeShort (atEdge (receiver 1000 0x00AB 254 true true) 1417))).map State.rx =
      some (receiver 1417 0x0157 255 true true) := by decide

/-- READ_STATUS of 95_test_vectors.md section 2.3, after edge 26. -/
theorem test_readStatus :
    (after (exec .readStatus (atEdge (receiver 64178 0xA53C 34 false true) 0))).map
      (fun t => (t.trace, t.rx.frameReady)) = some ([(0, .status true 0xA53C)], true) := by decide

/-- R134: allowed before `CONFIGURE`. -/
theorem test_readStatus_power_on : (after (exec .readStatus State.reset)).map State.trace =
    some [(0, .status false 0)] := by decide

theorem test_reserved : refusalOf (exec .reserved111 listening) = some .reservedOpcode := by decide

/-- R45: 0 is high, then low. -/
theorem test_symBit0 : (after (exec .symBit0 (configured tableT1))).map State.trace =
    some [(0, .setOutputLevel true)] := by decide

/-- R45: 1 is low, then high. -/
theorem test_symBit1 : (after (exec .symBit1 (configured tableT1))).map State.trace =
    some [(0, .setOutputLevel false)] := by decide

theorem test_symIdle : (after (exec .symIdle (configured tableT1))).map
    (fun t => (t.io.outLevel, t.tx.timer)) = some (true, 5500) := by decide

/-- V-TX-A53C: the frame bits are `1 10100101 00111100`, and there is no bracket. -/
theorem test_frameTx : (after (exec (.frameTx 0xA5 0x3C) listening)).map
    (fun t => (t.tx.frame, t.io.edgeDetect, t.trace)) =
      some (0b11010010100111100, true, [(0, .setOutputLevel false)]) := by decide

/-- V-RX-A5: the ticks of the 12 edges, on T2 from tick 1000. -/
theorem test_frameRx_edges : frameEdges tableT2 0xA5 1000 =
    [1000, 1014, 1028, 1042, 1070, 1098, 1126, 1140, 1154, 1182, 1210, 1238] := by decide

/-- V-RX-A5: the state after edge 12. -/
theorem test_frameRx :
    (after (exec (.frameRx 0xA5) (atEdge (receiver 0 0 0 true false) 100000))).map State.rx =
      some (receiver 107089 0x01A5 17 true true) := by decide

/-- V-TR-DISFAIL. -/
theorem test_transfer_disable_fails :
    refusalOf (exec (.transfer 0x01 0xFF)
      ((configured tableT1).withIo { State.reset.io with disableResult := -5 })) =
      some .disableFailed := by decide

/-- V-TR-PRECFG. -/
theorem test_transfer_before_configure :
    refusalOf (exec (.transfer 0x01 0xFF) State.reset) = some .notConfigured := by decide

/-- V-TR-FAIL, PROG5: the enable's code at step 36 is returned unchanged, detection kept off. -/
theorem test_enable_fails :
    (after (State.act ((configured tableT1).withIo { State.reset.io with enableResult := -5 })
      .enable)).map (fun t => (t.tx.result, t.io.edgeDetect)) = some (-5, false) := by decide

/-- `withFetchWord` puts an instruction where the next step takes it. -/
theorem test_fetch_configure :
    (after (step (State.reset.withFetchWord 24 0))).map State.tt = some (some tableT1) := by decide

theorem test_fetch_read_status :
    (after (step (State.reset.withFetchWord 24 0x60000))).map State.trace =
      some [(0, .status false 0)] := by decide

/-- R23: an edge of the line is dropped while detection is off. -/
theorem test_edge_dropped :
    (after (step (given (configured tableT1) (.lineIn false)))).map
      (fun t => (t.rx, t.io.inLevel)) = some (State.reset.rx, false) := by decide

/-- An input at the very tick of the enable comes before it or after it, as the input says. -/
theorem test_input_at_the_enable (b : Bool) :
    (after (step { (sending.withTx { sending.tx with step := 35 }) with
      inbox := [{ delay := 0, input := .lineIn false, afterCalls := b }] })).map
        (fun t => (t.io.edgeDetect, t.io.inLevel)) = some (b, b) := by
  cases b <;> decide

/-- With the sequencer free and a request held, an input at this tick is due at once only if it does
not wait for held requests. -/
theorem test_input_and_held_request (b : Bool) :
    (listening.withHeld [transferRequest 0xA5 0x3C]).isDue
      { delay := 0, input := .lineIn false, afterCalls := b } = !b := by
  cases b <;> decide

/-- R118: a disable that fails leaves detection on. -/
theorem test_host_disable_fails :
    (after (step (given (listening.withIo { listening.io with disableResult := -5 })
      .hostDisable))).map (fun t => t.io.edgeDetect) = some true := by decide

/-- The host's own enable inside the bracket of a `TRANSFER` is taken (log entry 31). -/
theorem test_host_enable_while_sending :
    (after (step (given sending .hostEnable))).map (fun t => (t.io.edgeDetect, t.tx.busy)) =
      some (true, true) := by decide

/-- V-RX-A5 up to edge 5: the bits committed, `1 1 0`, are what the register holds. -/
theorem test_committed_bits :
    ([100000, 100417, 100834, 101251, 102085].foldl (committedEdge Config.standard tableT1)
      (receiver 0 0 0 true false, [])).2 = [true, true, false] := by decide

/-! ### Witnesses: for every statement with hypotheses, inputs that meet all of them -/

/-- The last tick before the counter wraps, sequencer free, nothing to come. -/
def lastTick : State := { listening with tick := 4294967295 }

theorem witness_DecodeEncodeAgree :
    (Instr.transfer 0xFF 0x00).wellFormed = true ∧ (Instr.frameRx 0x80).wellFormed = true := by
  decide

theorem witness_EncodingsAreCanonicalUpToIgnoredBits :
    decode (.command 0x1FFFE) = .ok (.emitBit false) ∧
      decode (.line [true, false]) = .ok .symBit0 := by decide

theorem witness_ReservedCodeRefused :
    (0x70000 : CmdWord).extractLsb' 16 3 = 0b111 ∧ (0x7FFFF : CmdWord).extractLsb' 16 3 = 0b111 := by
  decide

theorem witness_NonFormatsRefused :
    (List.replicate 8 true).length = 8 ∧ (List.replicate 16 true).length = 16 ∧
      (∀ n ∈ [0, 3, 8, 10, 16, 18], (List.replicate n true).length ∉ [1, 2, 9, 17]) ∧
      decode (.line [false]) = .error .notIdleLevel := by decide

theorem witness_StepRunsDecodedOperation :
    (given listening (.command 0x50000)).inbox =
      { delay := 0, input := State.inputOf (.command 0x50000) } :: [] ∧
    listening.Due { delay := 0, input := .command 0x50000, afterCalls := true } ∧
    sending.Due { delay := 0, input := .command 0x50000 } ∧
    decode (.command 0x50000) = .ok .onEdge ∧ Instr.onEdge.wellFormed = true ∧
    listening.tt ≠ none ∧ listening.io.edgeDetect = true ∧
    (configured tableT1).io.edgeDetect = false := by decide

/-- Waiting for an input with the sequencer busy, and at rest with no input at all. -/
theorem witness_TimePassesWhenNothingIsDue :
    let busy := { (listening.withTx { listening.tx with busy := true, timer := 1 }) with
      inbox := [{ delay := 1, input := .hostEnable }] }
    (∀ a ∈ busy.inbox, 0 < a.delay) ∧ busy.tx.busy = true ∧ 0 < busy.tx.timer ∧
      lastTick.inbox = [] ∧ lastTick.tx.busy = false ∧ lastTick.held = [] := by decide

/-- A call that drives the line, the enable, and the end, the second with an input that waits. -/
theorem witness_CallsAreMadeInOrder :
    let s (k : Nat) := sending.withTx { sending.tx with step := k }
    sending.tt = some tableT1 ∧ sending.tx.busy = true ∧ sending.tx.timer = 0 ∧
      sending.inbox = [] ∧ ¬ sending.Due { delay := 0, input := .hostEnable, afterCalls := true } ∧
      (scheduleOf tableT1 (s 0).request)[1]? = some ⟨.drive false, 417⟩ ∧
      (scheduleOf tableT1 (s 35).request)[36]? = some ⟨.enable, 0⟩ ∧
      (scheduleOf tableT1 (s 36).request)[37]? = none := by decide

theorem witness_PowerOnValues : 4294967295 < 2 ^ Config.standard.tickW := by decide

theorem witness_UseBeforeConfigureRefused :
    State.reset.tt = none ∧ State.reset.ClearUntilConfigured ∧
      ∃ t, step (given State.reset (.command 0x60000)) = .next t :=
  ⟨rfl, fun _ => ⟨rfl, rfl⟩, _, rfl⟩

theorem witness_LineFormatsNeedTheTable :
    (State.reset.withTx { State.reset.tx with frame := 1 }).tt = none := rfl

theorem witness_ConfigureDerivesTable :
    (0x0FFFF : CmdWord).extractLsb' 16 3 = 0b000 ∧
    State.reset.tt = none ∧ State.reset.ports.tickHz ≠ 0 ∧ listening.tt ≠ none ∧
      (State.reset.withPorts { tickHz := 0, now := 0 }).ports.tickHz = 0 := by decide

theorem witness_DefaultTargetsGiveSoundTables :
    (configuredTable Config.standard 4801).WF ∧ (configuredTable Config.standard 2400).RT := by
  decide

theorem witness_TableIsConstantOfARun :
    (∃ t, step (given listening (.command 0x60000)) = .next t) ∧ listening.tt = some tableT1 :=
  ⟨⟨_, rfl⟩, rfl⟩

theorem witness_SegmentsOfBits : 0 < 2 * [true].length ∧ 1 < 2 * [true].length := by decide

theorem witness_TransmissionsBegin :
    listening.tt = some tableT1 ∧ listening.Free ∧
      (∃ b : Level, Instr.emitBit true = .emitBit b ∧ (1 : Frame) = if b then 1 else 0) ∧
      ∃ a d : Byte, Instr.frameTx 0x80 0x01 = .frameTx a d ∧
        (0x18001 : Frame) = (1 : BitVec 1) ++ a ++ d :=
  ⟨rfl, ⟨rfl, rfl⟩, ⟨true, rfl, rfl⟩, 0x80, 0x01, rfl, by decide⟩

theorem witness_EmitBitSendsItsSymbol :
    (0x1FFFF : CmdWord).extractLsb' 16 3 = 0b001 ∧
    lastTick.tt = some tableT1 ∧ lastTick.Free ∧ lastTick.inbox = [] ∧
      lastTick.tick < 2 ^ lastTick.cfg.tickW := by decide

theorem witness_EmitIdleHoldsTheLineHigh :
    (0x3FFFF : CmdWord).extractLsb' 16 3 = 0b011 ∧
    lastTick.tt = some tableT1 ∧ lastTick.Free ∧ lastTick.inbox = [] ∧
      lastTick.tick < 2 ^ lastTick.cfg.tickW := by decide

theorem witness_TransmissionsRunTheirSegments :
    lastTick.tt = some tableT1 ∧ lastTick.Free ∧ lastTick.inbox = [] ∧
      lastTick.tick < 2 ^ lastTick.cfg.tickW ∧
      (∃ a d, Instr.frameTx 0xFF 0x00 = .frameTx a d ∧ frameRequest 0xFF 0 = frameRequest a d) :=
  ⟨rfl, ⟨rfl, rfl⟩, rfl, by decide, 0xFF, 0, rfl, rfl⟩

theorem witness_TransferBegins :
    listening.tt = some tableT1 ∧ listening.Free ∧ listening.io.disableResult = 0 := by decide

theorem witness_TransferRunsItsSchedule :
    lastTick.tt = some tableT1 ∧ lastTick.Free ∧ lastTick.inbox = [] ∧
      lastTick.tick < 2 ^ lastTick.cfg.tickW ∧ lastTick.io.disableResult = 0 ∧ 0 < 34 ∧ 33 < 34 := by
  decide

theorem witness_FailedDisableRefused :
    let s := listening.withIo { listening.io with disableResult := -1 }
    s.tt = some tableT1 ∧ s.Free ∧ s.io.disableResult ≠ 0 := by decide

theorem witness_BusySequencerHoldsRequests :
    sending.tt ≠ none ∧ ¬ sending.Free ∧ ¬ (listening.withHeld [idleRequest]).Free ∧
      (∃ v, Instr.emitByte 0xFF = .emitByte v ∧ byteRequest 0xFF = byteRequest v) :=
  ⟨by decide, by decide, by decide, 0xFF, rfl, rfl⟩

/-- Between elements, in a wait, and past the last element. -/
theorem witness_TransmissionKeepsItsPace :
    sending.tt = some tableT1 ∧ sending.tx.busy = true ∧
    (after (step sending)).map (fun t => t.tx.step) = some 1 ∧
    (after (step (sending.withTx { sending.tx with step := 1, timer := 1 }))).map
      (fun t => t.tx.timer) = some 0 ∧
    (after (step (sending.withTx { sending.tx with step := 36 }))).map
      (fun t => t.tx.busy) = some false := by decide

/-- Two equal requests held behind a transfer, and a third that joins them. -/
theorem witness_HeldRequestsAreNotLost :
    (after (step (given (sending.withHeld [idleRequest, idleRequest]) (.command 0x30000)))).map
      State.held = some [idleRequest, idleRequest, idleRequest] := by decide

/-- With the next input a tick away, and with one that waits at this tick. -/
theorem witness_HeldRequestsStart :
    let s := listening.withHeld [transferRequest 0xA5 0x3C, idleRequest, idleRequest]
    s.tt = some tableT1 ∧ s.tx.busy = false ∧ s.held ≠ [] ∧
      (∀ a ∈ (s.withInbox [{ delay := 1, input := .lineIn false }]).inbox, 0 < a.delay) ∧
      (s.withInbox [{ delay := 0, input := .lineIn false, afterCalls := true }]).inbox =
        { delay := 0, input := .lineIn false, afterCalls := true } :: [] := by decide

theorem witness_OnEdgeIsThePureStep :
    (atEdge (receiver 1000 3 3 true false) 1625).tt = some tableT1 := rfl

theorem witness_ResetClassRestartsTheReceiver :
    let s := atEdge (receiver 1000 0x01A5 17 true true) 6501
    s.tt = some tableT1 ∧ tableT1.resetThreshold < elapsed s.cfg s.rx s.ports.now ∧
      elapsed s.cfg s.rx s.ports.now = tableT1.resetThreshold + 1 := by decide

theorem witness_LongClassCommitsTheComplement :
    let s := atEdge (receiver 1000 0x01A5 17 true true) 6500
    s.tt = some tableT1 ∧ tableT1.shortLongBoundary < elapsed s.cfg s.rx s.ports.now ∧
      elapsed s.cfg s.rx s.ports.now ≤ tableT1.resetThreshold := by decide

theorem witness_ShortClassCommitsAtOddCounts :
    let s := atEdge (receiver 1000 0x01A5 17 true true) 1625
    s.tt = some tableT1 ∧ elapsed s.cfg s.rx s.ports.now ≤ tableT1.shortLongBoundary ∧
      elapsed s.cfg s.rx s.ports.now ≤ tableT1.resetThreshold := by decide

theorem witness_ElapsedSelectsOneRow :
    (atEdge (receiver 1000 3 3 true false) 1626).tt = some tableT1 := rfl

theorem witness_EveryEdgeIsStamped :
    (atEdge (receiver 4294967040 1 1 true false) 4294967039).tt = some tableT1 := rfl

/-- Each clause, at its own value. -/
theorem witness_ThresholdsPickOneBranch :
    let at' (now : Nat) := atEdge (receiver 1000 3 3 true false) now
    let gap (now : Nat) := elapsed (at' now).cfg (at' now).rx (at' now).ports.now
    (at' 1625).tt = some tableT1 ∧ tableT1.shortLongBoundary < tableT1.resetThreshold ∧
      gap 1625 = tableT1.shortLongBoundary ∧ gap 1626 = tableT1.shortLongBoundary + 1 ∧
      gap 6500 = tableT1.resetThreshold ∧ gap 6501 = tableT1.resetThreshold + 1 := by decide

theorem witness_ReadStatusSnapshots : (0x6FFFF : CmdWord).extractLsb' 16 3 = 0b110 := by decide

theorem witness_OnlyEdgesWriteTheReceiver :
    (∃ t, exec .readStatus listening = .next t) ∧ Instr.readStatus.isEdgeEvent = false ∧
      ∃ t, sending.advance = .next t := ⟨⟨_, rfl⟩, rfl, ⟨_, rfl⟩⟩

theorem witness_MaskedReceiverIsFrozen :
    (configured tableT1).io.edgeDetect = false ∧
      ∃ t, step (given (configured tableT1) (.command 0x50000)) = .next t := ⟨rfl, _, rfl⟩

/-- Both ways in which the flag is cleared. -/
theorem witness_ReadyFlagIsClearedOnlyByResetOrRead :
    let s := atEdge (receiver 1000 0x01A5 17 true true) 6501
    let u := { s with cfg := { s.cfg with clearOnRead := true } }
    s.rx.frameReady = true ∧
      (after (exec .onEdge s)).map (fun t => t.rx.frameReady) = some false ∧
      (after (exec .readStatus u)).map (fun t => t.rx.frameReady) = some false ∧
      (after sending.advance).isSome = true := by decide

theorem witness_EdgesKeepReceiverConsistent :
    let s := atEdge (receiver 1000 1 1 true false) 1625
    s.cfg.Admissible ∧ s.tt = some tableT1 ∧ s.rx.Consistent ∧
      s.rx.halfBitCount + 2 < 2 ^ s.cfg.cntW := by decide

theorem witness_CommitsKeepStepWithHalfBits :
    6 ≤ Config.standard.cntW ∧ (receiver 0 0 0 true false).halfBitCount = 0 ∧
      (receiver 0 0 0 true false).accumulatedBits = 0 ∧
      ∀ k, k < [100000, 100417, 101251].length →
        (receive Config.standard tableT1 (receiver 0 0 0 true false)
          ([100000, 100417, 101251].take k)).halfBitCount + 2 < 2 ^ Config.standard.cntW := by
  decide

theorem witness_LowAccumulatorBitsIgnoreWidth :
    (atEdge (receiver 1000 0x8001 15 false false) 1834).tt = some tableT1 ∧
      16 ≤ Config.standard.accW ∧ 16 ≤ 32 ∧ 0x18001 % 65536 = 0x8001 % 65536 := by decide

theorem witness_EdgesCommuteWithTheTransmitAgent :
    sending.tt = some tableT1 ∧ ∃ t, sending.advance = .next t := ⟨rfl, _, rfl⟩

/-- A drive to the line's own level, and a change with detection off and on. -/
theorem witness_LineChangesAreEdges :
    let s (l : Level) := given listening (.lineIn l)
    (s true).tt = some tableT1 ∧ (s true).inbox = { delay := 0, input := .lineIn true } :: [] ∧
      (s true).Due { delay := 0, input := .lineIn true } ∧
      (s true).io.inLevel = true ∧ (s false).io.inLevel ≠ false ∧
      (s false).io.edgeDetect = true ∧ (configured tableT1).io.edgeDetect = false ∧
      (configured tableT1).io.inLevel ≠ false := by decide

theorem witness_HostSwitchesEdgeDetection :
    (given listening .hostEnable).inbox = { delay := 0, input := .hostEnable } :: [] ∧
      (given listening .hostDisable).inbox = { delay := 0, input := .hostDisable } :: [] ∧
      (given listening .hostEnable).Due { delay := 0, input := .hostEnable } ∧
      listening.io.disableResult = 0 ∧
      (listening.withIo { listening.io with disableResult := -1 }).io.disableResult ≠ 0 := by decide

/-- The ports and the codes, each at the edge of its width: what is above it is cut off. -/
theorem witness_PortsAndCodesAreWritten :
    listening.Due { delay := 0, input := .edgePort 4294967296, afterCalls := true } ∧
      (after (step (given listening (.configurePort 32768)))).map State.ports =
        some { tickHz := 32768, now := 0 } ∧
      (after (step (given listening (.edgePort 4294967301)))).map State.ports =
        some { tickHz := 1000000, now := 5 } ∧
      (after (step (given listening (.capabilityCodes (-5) 2147483648)))).map
        (fun t => (t.io.disableResult, t.io.enableResult)) = some (-5, -2147483648) := by decide

/-- The longest frame the count of the default width holds, and the first interval that resets. -/
theorem witness_WellFormedFramesDecode :
    tableT1.RT ∧ FirstEdgeResets Config.standard tableT1 (receiver 0 0 0 true false) 5501 ∧
      2 * (List.replicate 127 false).length + 1 < 2 ^ Config.standard.cntW :=
  ⟨by decide, by decide, by rw [List.length_replicate]; decide⟩

theorem witness_ReceiveFrameDeliversItsEdges :
    (atEdge (receiver 0 0 0 true false) 0).tt = some tableT1 := rfl

theorem witness_ReceiveFrameDecodes :
    let s := atEdge (receiver 0 0xFFFF 40 false true) 5501
    s.cfg.Admissible ∧ s.tt = some tableT1 ∧ tableT1.RT ∧
      FirstEdgeResets s.cfg tableT1 s.rx s.ports.now := by decide

theorem witness_PeerReceivesTheTransfer :
    Config.standard.Admissible ∧ tableT1.RT ∧
      FirstEdgeResets Config.standard tableT1 (receiver 0 0 0 true false) 5501 := by decide

/-- For a byte whose first bit is 1 and for one whose first bit is 0. -/
theorem witness_NoStartBitNoFrame :
    let rx := receiver 0 0 0 true false
    Config.standard.Admissible ∧ tableT1.RT ∧
      FirstEdgeResets Config.standard tableT1 rx
        (if (0x80 : Byte)[7] then 5501 else 5501 + tableT1.halfBit) ∧
      FirstEdgeResets Config.standard tableT1 rx
        (if (0x7F : Byte)[7] then 5501 else 5501 + tableT1.halfBit) ∧ 0 < 1 := by decide

/-- V-RX-JIT: 41 ticks to and fro on T1. -/
theorem witness_JitterDoesNotChangeTheFrame :
    let nows := edgeTicks (segBits tableT1 (true :: msbBits (0xA5 : Byte))) 100000
    let moves : List Int := [41, -41, 41, -41, 41, -41, 41, -41, 41, -41, 41, -41]
    let moved := List.zipWith (fun (t : Nat) (m : Int) => ((t : Int) + m).toNat) nows moves
    let rx := receiver 0 0 0 true false
    moves.length = nows.length ∧ (∀ m ∈ moves, -((41 : Nat) : Int) ≤ m ∧ m ≤ (41 : Nat)) ∧
      41 ≤ 100000 ∧
      tableT1.halfBit + 2 * 41 ≤ tableT1.shortLongBoundary ∧
      tableT1.shortLongBoundary + 2 * 41 < 2 * tableT1.halfBit ∧
      2 * tableT1.halfBit + 2 * 41 ≤ tableT1.resetThreshold ∧ 2 * 41 < tableT1.halfBit ∧
      FirstEdgeResets Config.standard tableT1 rx 100000 ∧
      FirstEdgeResets Config.standard tableT1 rx (moved.headD 0) := by decide

theorem witness_RangesHoldAtPowerOn : Config.standard.Admissible := by decide

theorem witness_EveryStepKeepsRanges :
    State.reset.InRange ∧ ∃ t, step (given State.reset (.command 0x00000)) = .next t :=
  ⟨⟨by decide, by decide, by decide, by decide, by decide, by decide, by decide,
    (fun _ h => nomatch h), by decide, by decide, by decide, by decide, by decide⟩, _, rfl⟩

end Sys2Proof.Tests
end

section
/-!
The presented encoding and the reserved operation code (30_encoding.md, R56).
-/

namespace Sys2Proof.Machine

open State

variable {s : State}

/-- R53: a command word decodes by its operation code; 111 is the last one. -/
theorem decode_command_of_op_reserved {w : CmdWord} (h : w.extractLsb' 16 3 = 0b111) :
    decode (.command w) = .ok .reserved111 := by
  simp only [decode, decodeCommand, h]
  rfl

/-- R56: the reserved row has one arm, which refuses. -/
theorem exec_reserved111 (s : State) : exec .reserved111 s = .refused .reservedOpcode := rfl

theorem deliver_inputOf (s : State) (e : Encoding) :
    s.deliver (inputOf e) = s.deliverEncoding e := by
  cases e <;> rfl

theorem deliverEncoding_of_decode {e : Encoding} {i : Instr} (h : decode e = .ok i) :
    s.deliverEncoding e = s.deliverInstr i := by
  rw [deliverEncoding, h]

/-- What is no edge is never dropped (R23). -/
theorem deliverInstr_of_not_edge {i : Instr} (h : i.isEdgeEvent = false) :
    s.deliverInstr i = exec i s := by
  simp [deliverInstr, h]

/-- A presented encoding is the next input and due, so the step delivers it (log entry 18). -/
theorem step_present (s : State) (e : Encoding) : step (s.present e) =
    (s.withIo { s.io with edgeDetect := s.io.edgeDetect || deliversEdges e }).deliverEncoding e := by
  have hdue : (s.present e).isDue { delay := 0, input := inputOf e } = true :=
    (isDue_iff _).2 ⟨rfl, nofun⟩
  calc step (s.present e)
      = ((s.present e).withInbox s.inbox).deliver (inputOf e) := move_of_due rfl hdue
    _ = _ := deliver_inputOf _ e

/-- Settles O4: the operation code alone selects the reserved row, whose arm refuses without looking
at the state; the step reaches that arm since the row is no edge, which detection could drop. -/
theorem reservedCodeRefused : Obligations.ReservedCodeRefused := by
  intro s w hop
  have hdec := decode_command_of_op_reserved hop
  refine ⟨hdec, exec_reserved111 s, ?_⟩
  rw [step_present, deliverEncoding_of_decode hdec, deliverInstr_of_not_edge rfl, exec_reserved111]

end Sys2Proof.Machine
end

section
/-!
The Timing Configurator: the exact conversion to ticks and the three answers of `CONFIGURE`
(40_timing_config.md, R60, R61, R63).
-/

namespace Sys2Proof.Machine

open State

variable {s : State}

/-- R61 on integers: no fewer ticks cover the target, and these many do. -/
theorem ticks_le_iff (hz ns k : Nat) : ticks hz ns ≤ k ↔ ns * hz ≤ k * 1000000000 := by
  unfold ticks
  omega

/-- R61: the integer quotient of the model is the ceiling of the rational number; the two have the
same upper bounds. -/
theorem ticks_eq_ceil (hz ns : Nat) :
    ticks hz ns = ⌈((ns * hz : ℕ) : ℚ) / 1000000000⌉₊ := by
  refine eq_of_forall_ge_iff fun k => ?_
  rw [ticks_le_iff, Nat.ceil_le, div_le_iff₀ (by norm_num)]
  exact_mod_cast Iff.rfl

/-- R53: a command word decodes by its operation code; 000 is the first one. -/
theorem decode_command_of_op_configure {w : CmdWord} (h : w.extractLsb' 16 3 = 0b000) :
    decode (.command w) = .ok .configure := by
  simp only [decode, decodeCommand, h]
  rfl

theorem exec_configure_of_unconfigured (htt : s.tt = none) (hhz : s.ports.tickHz ≠ 0) :
    exec .configure s = .next (s.withTable (configuredTable s.cfg s.ports.tickHz)) := by
  simp [exec, execConfigure, htt, hhz]

theorem exec_configure_of_configured (htt : s.tt ≠ none) :
    exec .configure s = .refused .secondConfigure := by
  obtain ⟨tt, htt⟩ := Option.ne_none_iff_exists'.1 htt
  simp [exec, execConfigure, htt]

theorem exec_configure_of_zero_frequency (htt : s.tt = none) (hhz : s.ports.tickHz = 0) :
    exec .configure s = .refused .zeroTickFrequency := by
  simp [exec, execConfigure, htt, hhz]

/-- Settles O12: `CONFIGURE` replaces the table alone, and each of its durations is the rational
ceiling by `ticks_eq_ceil`. -/
theorem configureDerivesTable : Obligations.ConfigureDerivesTable := by
  refine ⟨fun _ => decode_command_of_op_configure, fun s => ⟨fun htt hhz => ?_,
    exec_configure_of_configured, exec_configure_of_zero_frequency⟩⟩
  simp only [exec_configure_of_unconfigured htt hhz, withTable, configuredTable, ticks_eq_ceil]

end Sys2Proof.Machine
end

section
/-!
The bits of a byte and of the transmit frame as a list, and the edges, levels and durations of the
segments they become (41_transmitter.md, R51, R71, R73).
-/

namespace Sys2Proof

@[simp] theorem length_msbBits {n : Nat} (v : BitVec n) : (msbBits v).length = n := by
  simp [msbBits]

theorem getElem_msbBits {n : Nat} (v : BitVec n) (i : Nat) (h : i < (msbBits v).length) :
    (msbBits v)[i] = v.getLsbD (n - 1 - i) := by
  simp [msbBits]

/-- R51: joined words are sent one after the other. -/
theorem msbBits_append {m n : Nat} (x : BitVec m) (y : BitVec n) :
    msbBits (x ++ y) = msbBits x ++ msbBits y := by
  refine List.ext_getElem (by simp) fun i hi _ => ?_
  rw [length_msbBits] at hi
  simp only [List.getElem_append, getElem_msbBits, BitVec.getLsbD_append, length_msbBits]
  by_cases him : i < m
  · have hx : ¬ m + n - 1 - i < n := by omega
    have hidx : m + n - 1 - i - n = m - 1 - i := by omega
    simp [him, hx, hidx]
  · have hy : m + n - 1 - i < n := by omega
    have hidx : m + n - 1 - i = n - 1 - (i - m) := by omega
    simp [him, hy, ← hidx]

theorem msbBits_byte (v : Byte) :
    msbBits v = [v[7], v[6], v[5], v[4], v[3], v[2], v[1], v[0]] := rfl

end Sys2Proof

namespace Sys2Proof.Machine

@[simp] theorem length_sentBits (n : Nat) (f : Frame) : (sentBits n f).length = n :=
  length_msbBits _

theorem sentBits_byteRequest (v : Byte) : sentBits 8 (byteRequest v).frame = msbBits v := by
  simp [sentBits, byteRequest]

/-- R47: the start bit, the address byte, the data byte. -/
theorem sentBits_txFrame (a d : Byte) :
    sentBits 17 (txFrame a d) = [true] ++ msbBits a ++ msbBits d := by
  rw [sentBits, BitVec.setWidth_eq, txFrame, msbBits_append, msbBits_append]
  rfl

theorem sentBits_bitRequest (b : Level) : sentBits 1 (bitRequest b).frame = [b] := by
  cases b <;> rfl

theorem segmentsOf_bitRequest (tt : TimingTable) (b : Level) :
    segmentsOf tt (bitRequest b) = segBit tt b := by
  show segBits tt (sentBits 1 (bitRequest b).frame) = _
  rw [sentBits_bitRequest]
  rfl

theorem segBits_cons (tt : TimingTable) (b : Level) (bs : List Level) :
    segBits tt (b :: bs) = ⟨!b, tt.halfBit⟩ :: ⟨b, tt.halfBit⟩ :: segBits tt bs := rfl

@[simp] theorem durationOf_nil : durationOf [] = 0 := rfl

@[simp] theorem durationOf_cons (g : Segment) (gs : List Segment) :
    durationOf (g :: gs) = g.duration + durationOf gs := by
  simp [durationOf]

@[simp] theorem length_segBits (tt : TimingTable) (bs : List Level) :
    (segBits tt bs).length = 2 * bs.length := by
  simp [segBits, segBit, Nat.mul_comm]

/-- R73: two segments a bit, so segment `k` belongs to bit `k / 2`. -/
theorem getElem?_segBits (tt : TimingTable) (bs : List Level) (k : Nat) (hk : k < 2 * bs.length) :
    (segBits tt bs)[k]? = some
      { level := if k % 2 = 0 then !(bs.getD (k / 2) false) else bs.getD (k / 2) false
        duration := tt.halfBit } := by
  induction bs generalizing k with
  | nil => simp at hk
  | cons b bs ih =>
    rw [segBits_cons]
    match k with
    | 0 => rfl
    | 1 => rfl
    | k + 2 =>
      rw [List.length_cons] at hk
      simpa using ih k (by omega)

/-- R73: every segment of a bit lasts one half-bit. -/
theorem durationOf_take_segBits (tt : TimingTable) (bs : List Level) (k : Nat)
    (hk : k ≤ 2 * bs.length) : durationOf ((segBits tt bs).take k) = k * tt.halfBit := by
  induction bs generalizing k with
  | nil =>
    obtain rfl : k = 0 := by simpa using hk
    simp
  | cons b bs ih =>
    rw [segBits_cons]
    match k with
    | 0 => simp
    | 1 => simp
    | k + 2 =>
      rw [List.length_cons] at hk
      simp only [List.take_succ_cons, durationOf_cons, ih k (by omega)]
      ring

/-- Settles O16: by induction on the bits, and the bits of the two requests from `msbBits`. -/
theorem segmentsOfBits : Obligations.SegmentsOfBits := by
  refine ⟨fun tt bs k hk => ⟨getElem?_segBits tt bs k hk, durationOf_take_segBits tt bs k hk.le⟩,
    fun tt v => ?_, fun tt a d => ?_⟩
  · exact congrArg (segBits tt) ((sentBits_byteRequest v).trans (msbBits_byte v))
  · rw [← msbBits_byte, ← msbBits_byte, ← sentBits_txFrame]
    rfl

/-- Settles O15: the first half-bit is the inverse of the bit, so the mid-bit call always changes
the line, and the call at the start does if the line was at the bit. -/
theorem oneMidBitEdgePerBit : Obligations.OneMidBitEdgePerBit := by
  intro tt b t
  cases b <;> exact ⟨rfl, rfl⟩

end Sys2Proof.Machine
end

section
/-!
The run of the transmit agent over the segments of a schedule while no input arrives
(41_transmitter.md, blocking and time; R75, R101), and with it the runs of `EMIT_BIT` (R70) and
`EMIT_IDLE` (R74).
-/

namespace Sys2Proof.Machine

open State

variable {s t : State} {tt : TimingTable}

/-! ### Schedules, calls and levels -/

theorem scheduleOf_of_ne_transfer {r : TxRequest} (h : r.op ≠ .transfer) :
    scheduleOf tt r = driveAll (segmentsOf tt r) := by
  unfold scheduleOf
  split
  · contradiction
  all_goals rfl

/-- Calls are stamped modulo the counter's width, so starts that agree modulo it give the same. -/
theorem callsOf_congr {w m n : Nat} (gs : List Segment) (h : m ≡ n [MOD 2 ^ w]) :
    callsOf w gs m = callsOf w gs n := by
  induction gs generalizing m n with
  | nil => rfl
  | cons g gs ih => rw [callsOf, callsOf, h, ih (h.add_right g.duration)]

theorem levelAfter_cons (g : Segment) (gs : List Segment) (l : Level) :
    levelAfter (g :: gs) l = levelAfter gs g.level := by
  cases gs <;> simp [levelAfter, List.getLast?_cons]

/-! ### Runs -/

theorem core_run_succ {M : Host.Core} {s t : M.State} (h : M.step s = .next t) (n : Nat) :
    M.run (n + 1) s = M.run n t := by
  rw [Host.Core.run, h]

theorem runSteps_succ (h : step s = .next t) (n : Nat) : runSteps (n + 1) s = runSteps n t :=
  core_run_succ (M := Sys2Proof.core) h n

/-- The block is sending on the table `tt`, and no input is to come. -/
structure State.Sending (s : State) (tt : TimingTable) : Prop where
  busy : s.tx.busy = true
  table : s.tt = some tt
  inbox : s.inbox = []
  tick : s.tick < 2 ^ s.cfg.tickW

/-- `s` after the rest of its present wait and the segments `gs` of its schedule, the last of them
waited out. -/
def State.afterDriving (s : State) (gs : List Segment) : State :=
  { s with
    tick := (s.tick + s.tx.timer + durationOf gs) % 2 ^ s.cfg.tickW
    tx := { s.tx with step := s.tx.step + gs.length, timer := 0 }
    io := { s.io with outLevel := levelAfter gs s.io.outLevel }
    trace := (callsOf s.cfg.tickW gs (s.tick + s.tx.timer)).reverse ++ s.trace }

/-- The next element of the schedule is entered: it drives the line as `g` says. -/
def State.driven (s : State) (k : Nat) (g : Segment) : State :=
  (s.withTx { s.tx with step := k, timer := g.duration }).setOutputLevel g.level

/-- A free sequencer has taken `r` and not yet entered its schedule (R76). -/
def State.taking (s : State) (r : TxRequest) : State :=
  s.withTx { s.tx with busy := true, op := r.op, frame := r.frame }

theorem begin_eq (r : TxRequest) : s.begin tt r = (s.taking r).enterElement tt 0 := rfl

@[simp] theorem afterDriving_step (gs : List Segment) :
    (s.afterDriving gs).tx.step = s.tx.step + gs.length := rfl

@[simp] theorem driven_step (k : Nat) (g : Segment) : (s.driven k g).tx.step = k := rfl

@[simp] theorem request_driven (k : Nat) (g : Segment) : (s.driven k g).request = s.request := rfl

@[simp] theorem request_afterDriving (gs : List Segment) :
    (s.afterDriving gs).request = s.request := rfl

@[simp] theorem request_taking (r : TxRequest) : (s.taking r).request = r := rfl

theorem State.Sending.passTick (h : s.Sending tt) : s.passTick.Sending tt where
  busy := h.busy
  table := h.table
  inbox := by simp [h.inbox, sooner]
  tick := Nat.mod_lt _ (Nat.two_pow_pos _)

theorem State.Sending.afterDriving (h : s.Sending tt) (gs : List Segment) :
    (s.afterDriving gs).Sending tt where
  busy := h.busy
  table := h.table
  inbox := h.inbox
  tick := Nat.mod_lt _ (Nat.two_pow_pos _)

theorem State.Sending.driven (h : s.Sending tt) (k : Nat) (g : Segment) :
    (s.driven k g).Sending tt :=
  ⟨h.busy, h.table, h.inbox, h.tick⟩

/-- Nothing is left to do of a wait that is over. -/
theorem afterDriving_nil_of_timer_zero (h : s.Sending tt) (h0 : s.tx.timer = 0) :
    s.afterDriving [] = s := by
  have htx : { s.tx with timer := 0 } = s.tx := by rw [← h0]
  simp [afterDriving, h0, htx, Nat.mod_eq_of_lt h.tick, levelAfter, callsOf]

theorem step_of_sending (h : s.Sending tt) : step s = s.sequencerMove := by
  have hmove : s.move = s.advance := move_of_later fun a as ha => by simp [h.inbox] at ha
  rw [step, hmove, advance, if_pos h.busy]

/-- A tick of the wait (R101). -/
theorem step_of_waiting (h : s.Sending tt) (h0 : s.tx.timer ≠ 0) : step s = .next s.passTick := by
  rw [step_of_sending h, sequencerMove, if_neg h0]

/-- The wait is over: the next element is entered (R101). -/
theorem step_of_waited (h : s.Sending tt) (h0 : s.tx.timer = 0) :
    step s = s.enterElement tt (s.tx.step + 1) := by
  rw [step_of_sending h, sequencerMove, if_pos h0, needTable_of_some h.table]

theorem enterElement_drive {k : Nat} {g : Segment}
    (h : (scheduleOf tt s.request)[k]? = some ⟨.drive g.level, g.duration⟩) :
    s.enterElement tt k = .next (s.driven k g) := by
  rw [enterElement, h]
  rfl

theorem enterElement_none {k : Nat} (h : (scheduleOf tt s.request)[k]? = none) :
    s.enterElement tt k = .next s.finish := by
  rw [enterElement, h]

theorem afterDriving_nil_passTick (h : s.Sending tt) (h0 : s.tx.timer ≠ 0) :
    s.passTick.afterDriving [] = s.afterDriving [] := by
  have htick : s.tick + 1 + (s.tx.timer - 1) = s.tick + s.tx.timer := by omega
  simp [afterDriving, passTick, h.inbox, sooner, htick, callsOf]

/-- A wait takes one step for each of its ticks. -/
theorem runSteps_wait (h : s.Sending tt) (n : Nat) :
    runSteps (s.tx.timer + n) s = runSteps n (s.afterDriving []) := by
  induction hk : s.tx.timer generalizing s with
  | zero => rw [afterDriving_nil_of_timer_zero h hk, Nat.zero_add]
  | succ k ih =>
    have h0 : s.tx.timer ≠ 0 := by omega
    rw [Nat.add_right_comm, runSteps_succ (step_of_waiting h h0), ih h.passTick (by simp [hk]),
      afterDriving_nil_passTick h h0]

theorem afterDriving_cons (g : Segment) (gs : List Segment) :
    ((s.afterDriving []).driven (s.tx.step + 1) g).afterDriving gs = s.afterDriving (g :: gs) := by
  have hstep : s.tx.step + 1 + gs.length = s.tx.step + (gs.length + 1) := by omega
  have hcalls : callsOf s.cfg.tickW gs ((s.tick + s.tx.timer) % 2 ^ s.cfg.tickW + g.duration) =
      callsOf s.cfg.tickW gs (s.tick + s.tx.timer + g.duration) :=
    callsOf_congr gs ((Nat.mod_modEq _ _).add_right _)
  simp [afterDriving, State.driven, withTx, setOutputLevel, withIo, emit, levelAfter_cons, callsOf,
    hstep, hcalls, Nat.add_assoc]

/-- The agent enters the segments that its schedule holds next one by one and waits each of them
out: one step for each call and one for each tick. -/
theorem runSteps_segments {gs : List Segment} {rest : List Element} (h : s.Sending tt)
    (hnext : (scheduleOf tt s.request).drop (s.tx.step + 1) = driveAll gs ++ rest) (n : Nat) :
    runSteps (s.tx.timer + (durationOf gs + gs.length + n)) s = runSteps n (s.afterDriving gs) := by
  induction gs generalizing s with
  | nil => simpa using runSteps_wait h n
  | cons g gs ih =>
    have hhead : (scheduleOf tt s.request)[s.tx.step + 1]? =
        some ⟨.drive g.level, g.duration⟩ := by
      rw [← List.head?_drop, hnext]
      rfl
    have htail : (scheduleOf tt s.request).drop (s.tx.step + 1 + 1) = driveAll gs ++ rest := by
      rw [← List.tail_drop, hnext]
      rfl
    have hw := h.afterDriving []
    have hcount : s.tx.timer + (durationOf (g :: gs) + (g :: gs).length + n) =
        s.tx.timer + (g.duration + (durationOf gs + gs.length + n) + 1) := by
      simp only [durationOf_cons, List.length_cons]
      omega
    have hstep : step (s.afterDriving []) =
        .next ((s.afterDriving []).driven (s.tx.step + 1) g) :=
      (step_of_waited hw rfl).trans (enterElement_drive hhead)
    rw [hcount, runSteps_wait h, runSteps_succ hstep, ← afterDriving_cons]
    exact ih (hw.driven _ g) htail

/-! ### A whole stand-alone transmission -/

/-- Every transmission has a first segment. -/
theorem exists_segmentsOf_eq_cons (tt : TimingTable) (r : TxRequest) :
    ∃ g gs, segmentsOf tt r = g :: gs := by
  refine List.exists_cons_of_length_pos ?_
  cases hop : r.op <;> simp [segmentsOf, hop, segIdle]

/-- After the last wait the sequencer is free again and has no result to return (R18). -/
theorem finish_afterDriving {r : TxRequest} (g : Segment) (gs : List Segment)
    (hop : r.op ≠ .transfer) (htick : s.tick < 2 ^ s.cfg.tickW) :
    (((s.taking r).driven 0 g).afterDriving gs).finish = s.afterSending r (g :: gs) := by
  simp [finish_eq, afterDriving, afterSending, State.driven, State.taking, withTx, setOutputLevel,
    withIo, emit, levelAfter_cons, callsOf, hop, Nat.mod_eq_of_lt htick, Nat.add_assoc]

/-- A stand-alone transmission taken by a free sequencer makes the calls of its segments at their
ticks and leaves everything else as it was: a step for every tick, for every call but the first,
which is made at once, and for the end. -/
theorem runSteps_submit {r : TxRequest} (hop : r.op ≠ .transfer) (htt : s.tt = some tt)
    (hfree : s.Free) (hin : s.inbox = []) (htick : s.tick < 2 ^ s.cfg.tickW) :
    ∃ s₁, s.submit r = .next s₁ ∧
      runSteps (durationOf (segmentsOf tt r) + (segmentsOf tt r).length) s₁ =
        .next (s.afterSending r (segmentsOf tt r)) := by
  obtain ⟨g, gs, hsegs⟩ := exists_segmentsOf_eq_cons tt r
  have hsched : scheduleOf tt r = driveAll (g :: gs) := by
    rw [scheduleOf_of_ne_transfer hop, hsegs]
  have hfirst : s.submit r = .next ((s.taking r).driven 0 g) := by
    rw [submit_of_free htt hfree.1 hfree.2, begin_eq]
    exact enterElement_drive (by simp [hsched, driveAll])
  have hsend : ((s.taking r).driven 0 g).Sending tt := ⟨rfl, htt, hin, htick⟩
  have hrest : (scheduleOf tt ((s.taking r).driven 0 g).request).drop 1 = driveAll gs ++ [] := by
    simp [hsched, driveAll]
  have hlast : step (((s.taking r).driven 0 g).afterDriving gs) =
      .next (((s.taking r).driven 0 g).afterDriving gs).finish :=
    (step_of_waited (hsend.afterDriving gs) rfl).trans
      (enterElement_none (by simp [hsched, driveAll]))
  refine ⟨_, hfirst, ?_⟩
  calc runSteps (durationOf (segmentsOf tt r) + (segmentsOf tt r).length) _
      = runSteps (g.duration + (durationOf gs + gs.length + 1)) ((s.taking r).driven 0 g) := by
        rw [hsegs, durationOf_cons, List.length_cons]
        congr 1
        omega
    _ = runSteps 1 (((s.taking r).driven 0 g).afterDriving gs) := runSteps_segments hsend hrest 1
    _ = .next (((s.taking r).driven 0 g).afterDriving gs).finish := runSteps_succ hlast 0
    _ = .next (s.afterSending r (segmentsOf tt r)) := by
        rw [finish_afterDriving g gs hop htick, hsegs]

/-! ### `EMIT_BIT` and `EMIT_IDLE` -/

/-- R53: a command word decodes by its operation code; 001 is `EMIT_BIT` of bit 0. -/
theorem decode_command_of_op_emitBit {w : CmdWord} (h : w.extractLsb' 16 3 = 0b001) :
    decode (.command w) = .ok (.emitBit (w.getLsbD 0)) := by
  simp only [decode, decodeCommand, h]
  rfl

/-- R53: a command word decodes by its operation code; 011 is `EMIT_IDLE`. -/
theorem decode_command_of_op_emitIdle {w : CmdWord} (h : w.extractLsb' 16 3 = 0b011) :
    decode (.command w) = .ok .emitIdle := by
  simp only [decode, decodeCommand, h]
  rfl

@[simp] theorem bitRequest_op (b : Level) : (bitRequest b).op = .emitBit := rfl

theorem bitRequest_frame (b : Level) : (bitRequest b).frame = if b then 1 else 0 := by
  cases b <;> rfl

/-- Settles O18: the segments of `EMIT_BIT b` are the symbol of `b`, and its run is that of these
two segments. -/
theorem emitBitSendsItsSymbol : Obligations.EmitBitSendsItsSymbol := by
  refine ⟨fun _ => decode_command_of_op_emitBit, fun tt b t => ?_,
    fun s tt b htt hf hin htick => ?_⟩
  · rw [segmentsOf_bitRequest]
    exact ⟨rfl, oneMidBitEdgePerBit tt b t⟩
  · obtain ⟨s₁, hs₁, hrun⟩ := runSteps_submit (r := bitRequest b) nofun htt hf hin htick
    refine ⟨s₁, hs₁, ?_⟩
    rw [segmentsOf_bitRequest] at hrun
    simpa [segBit, afterSending, levelAfter, callsOf, bitRequest_frame, Nat.mod_eq_of_lt htick,
      ← Nat.two_mul] using hrun

/-- Settles O19: the one segment of `EMIT_IDLE` repeats the level of an idle line, and its run is
that of this segment. -/
theorem emitIdleHoldsTheLineHigh : Obligations.EmitIdleHoldsTheLineHigh := by
  refine ⟨fun _ => decode_command_of_op_emitIdle, fun tt t => ⟨rfl, rfl, rfl⟩,
    fun s tt htt hf hin htick => ?_⟩
  obtain ⟨s₁, hs₁, hrun⟩ := runSteps_submit (r := idleRequest) nofun htt hf hin htick
  refine ⟨s₁, hs₁, ?_⟩
  simpa [segmentsOf, idleRequest, segIdle, afterSending, levelAfter, callsOf,
    Nat.mod_eq_of_lt htick] using hrun

end Sys2Proof.Machine
end

section
/-!
The Receiver: `ON_EDGE` and its interval classes as explicit next states, the pure receive function
of R86, and the status read (42_receiver.md, R80 to R88, R94).
-/

namespace Sys2Proof.Machine

open State

variable {s : State} {tt : TimingTable}

/-- R80, R96: the model's difference of reduced naturals is the integer difference modulo
`2^TICK_W`. -/
theorem elapsed_eq_modularGap (c : Config) (rx : ReceiverState) (now : Nat) :
    elapsed c rx now = modularGap c rx.lastEdgeTimestamp now := by
  simp only [elapsed, subMod, modularGap]
  have hpos : 0 < 2 ^ c.tickW := Nat.two_pow_pos _
  generalize 2 ^ c.tickW = m at hpos
  have hle : rx.lastEdgeTimestamp % m ≤ m := (Nat.mod_lt _ hpos).le
  have hcast : (((now % m + (m - rx.lastEdgeTimestamp % m)) % m : Nat) : Int) =
      ((now : Int) - rx.lastEdgeTimestamp) % m := by
    push_cast [hle]
    rw [Int.emod_add_emod, ← add_sub_assoc, add_sub_right_comm, Int.add_emod_right,
      Int.sub_emod_emod]
  rw [← hcast, Int.toNat_natCast]

/-! ### What an edge of each class leaves (R81 to R85) -/

theorem edgeOfClass_reset (c : Config) (now : Nat) (rx : ReceiverState) :
    edgeOfClass c .reset now rx =
      { lastEdgeTimestamp := now % 2 ^ c.tickW
        accumulatedBits := 0
        halfBitCount := 0
        lastDecodedBit := true
        frameReady := false } := rfl

theorem edgeOfClass_long (c : Config) (now : Nat) (rx : ReceiverState) :
    edgeOfClass c .long now rx =
      { lastEdgeTimestamp := now % 2 ^ c.tickW
        accumulatedBits :=
          (2 * rx.accumulatedBits + (if rx.lastDecodedBit then 0 else 1)) % 2 ^ c.accW
        halfBitCount := (rx.halfBitCount + 2) % 2 ^ c.cntW
        lastDecodedBit := !rx.lastDecodedBit
        frameReady := rx.frameReady || decide (17 ≤ (rx.halfBitCount + 2) % 2 ^ c.cntW) } := by
  rw [edgeOfClass, frameReadyTest_eq]
  obtain ⟨last, acc, count, bit, ready⟩ := rx
  cases bit <;> rfl

theorem edgeOfClass_short (c : Config) (now : Nat) (rx : ReceiverState) :
    edgeOfClass c .short now rx =
      { lastEdgeTimestamp := now % 2 ^ c.tickW
        accumulatedBits :=
          if (rx.halfBitCount + 1) % 2 ^ c.cntW % 2 = 1 then
            (2 * rx.accumulatedBits + (if rx.lastDecodedBit then 1 else 0)) % 2 ^ c.accW
          else rx.accumulatedBits
        halfBitCount := (rx.halfBitCount + 1) % 2 ^ c.cntW
        lastDecodedBit := rx.lastDecodedBit
        frameReady := rx.frameReady || decide (17 ≤ (rx.halfBitCount + 1) % 2 ^ c.cntW) } := by
  rw [edgeOfClass, frameReadyTest_eq]
  obtain ⟨last, acc, count, bit, ready⟩ := rx
  cases bit <;> rfl

/-- The class selected by R49 and its body are the branch that R86 takes. -/
theorem edgeStep_eq_onEdgePure (c : Config) (tt : TimingTable) (rx : ReceiverState) (now : Nat) :
    edgeStep c tt rx now = onEdgePure c tt rx now := by
  simp only [edgeStep, onEdgePure, ← elapsed_eq_modularGap]
  generalize elapsed c rx now = e
  obtain ⟨hreset, hlong, hshort⟩ := classify_spec tt e
  cases hk : classify tt e with
  | reset => simp [edgeOfClass_reset, hreset.1 hk]
  | long =>
    obtain ⟨hgt, hle⟩ := hlong.1 hk
    cases hb : rx.lastDecodedBit <;> simp [edgeOfClass_long, hgt, hle.not_gt, hb]
  | short =>
    obtain ⟨hsl, hle⟩ := hshort.1 hk
    have hbit : ((if rx.lastDecodedBit then 1 else 0) == 1) = rx.lastDecodedBit := by
      cases rx.lastDecodedBit <;> rfl
    by_cases hodd : (rx.halfBitCount + 1) % 2 ^ c.cntW % 2 = 1
    · simp [edgeOfClass_short, hsl.not_gt, hle.not_gt, hodd, hbit]
    · simp [edgeOfClass_short, hsl.not_gt, hle.not_gt, hodd, hbit]

/-! ### The operations -/

/-- R80: on a configured block `ON_EDGE` delivers the edge in the class of its interval. -/
theorem exec_onEdge (htt : s.tt = some tt) :
    exec .onEdge s = .next (s.takeEdge (s.edgeClass tt)) := needTable_of_some htt

/-- R49: the interval-class row of `ON_EDGE`. -/
def IntervalClass.row : IntervalClass → Instr
  | .reset => .onEdgeReset
  | .long => .onEdgeLong
  | .short => .onEdgeShort

theorem exec_row (k : IntervalClass) (s : State) : exec k.row s = s.takeEdgeIf k := by
  cases k <;> rfl

/-- An edge of class `k` is delivered as that, given as `ON_EDGE` or as the row of the class. -/
theorem exec_of_edgeClass {k : IntervalClass} {i : Instr} (htt : s.tt = some tt)
    (hk : s.edgeClass tt = k) (hi : i = .onEdge ∨ i = k.row) :
    exec i s = .next (s.takeEdge k) := by
  obtain rfl | rfl := hi
  · rw [exec_onEdge htt, hk]
  · rw [exec_row, takeEdgeIf, needTable_of_some htt, if_pos hk]

/-- Settles O30: `ON_EDGE` writes the receive step, which is the function of R86. -/
theorem onEdgeIsThePureStep : Obligations.OnEdgeIsThePureStep := by
  intro s tt htt
  rw [exec_onEdge htt, ← edgeStep_eq_onEdgePure]
  rfl

/-- Settles O31: the interval is of class RESET, and that is what such an edge leaves. -/
theorem resetClassRestartsTheReceiver : Obligations.ResetClassRestartsTheReceiver := by
  intro s tt htt hreset i hi
  have hk : s.edgeClass tt = .reset := (classify_spec tt _).1.2 hreset
  rw [exec_of_edgeClass htt hk hi, takeEdge, edgeOfClass_reset, withRx]

/-- Settles O32: the interval is of class LONG, and that is what such an edge leaves. -/
theorem longClassCommitsTheComplement : Obligations.LongClassCommitsTheComplement := by
  intro s tt htt hsl hreset i hi
  have hk : s.edgeClass tt = .long := (classify_spec tt _).2.1.2 ⟨hsl, hreset⟩
  rw [exec_of_edgeClass htt hk hi, takeEdge, edgeOfClass_long, withRx]

/-- Settles O33: the interval is of class SHORT, and that is what such an edge leaves. -/
theorem shortClassCommitsAtOddCounts : Obligations.ShortClassCommitsAtOddCounts := by
  intro s tt htt hsl hreset i hi
  have hk : s.edgeClass tt = .short := (classify_spec tt _).2.2.2 ⟨hsl, hreset⟩
  rw [exec_of_edgeClass htt hk hi, takeEdge, edgeOfClass_short, withRx]

/-- Settles O35: the stamp is the last action of the edge in every class. -/
theorem everyEdgeIsStamped : Obligations.EveryEdgeIsStamped := fun _ _ htt =>
  ⟨_, exec_onEdge htt, rfl⟩

/-- Settles O36: with a LONG class that is not empty, each of the four values lies in one class. -/
theorem thresholdsPickOneBranch : Obligations.ThresholdsPickOneBranch := by
  intro s tt htt hne
  obtain ⟨hreset, hlong, hshort⟩ := classify_spec tt (elapsed s.cfg s.rx s.ports.now)
  refine ⟨_, exec_onEdge htt, fun h => ?_, fun h => ?_, fun h => ?_⟩
  · have hk : s.edgeClass tt = .short := hshort.2 (by omega)
    simp [hk, edgeOfClass_short]
  · have hk : s.edgeClass tt = .long := hlong.2 (by omega)
    simp [hk, edgeOfClass_long]
  · have hk : s.edgeClass tt = .reset := hreset.2 (by omega)
    simp [hk, edgeOfClass_reset]

/-! ### The status read -/

/-- R53: a command word decodes by its operation code; 110 is `READ_STATUS`. -/
theorem decode_command_of_op_readStatus {w : CmdWord} (h : w.extractLsb' 16 3 = 0b110) :
    decode (.command w) = .ok .readStatus := by
  simp only [decode, decodeCommand, h]
  rfl

/-- R88: the read changes the flag at most, and clears it exactly if `CLEAR_ON_READ`. -/
theorem readClears_eq (c : Config) (rx : ReceiverState) :
    readClears c rx = { rx with frameReady := rx.frameReady && !c.clearOnRead } := by
  obtain ⟨last, acc, count, bit, ready⟩ := rx
  unfold readClears
  cases c.clearOnRead <;> cases ready <;> rfl

/-- R88: sixteen status wires carry the low sixteen bits of the register. -/
theorem statusBits_eq_low (rx : ReceiverState) :
    statusBits rx = BitVec.ofNat 16 (rx.accumulatedBits % 65536) :=
  BitVec.eq_of_toNat_eq (by simp [statusBits])

/-- Settles O37: the code decodes to the row, whose arm shows and clears as the two lemmas above
say. -/
theorem readStatusSnapshots : Obligations.ReadStatusSnapshots := by
  refine ⟨fun _ => decode_command_of_op_readStatus, fun s => ?_⟩
  rw [← readClears_eq, ← statusBits_eq_low]
  rfl

end Sys2Proof.Machine
end

section
/-!
The number of edges of a transmission: one mid-bit edge a bit, one between equal neighbours, one for
a return to idle; and its parity, since every edge toggles the line (43_transfer.md, R104, R105).
-/

namespace Sys2Proof

/-- How often a bit of `bs` is followed by an equal one. -/
def equalNeighbours (bs : List Level) : Nat := (bs.zip bs.tail).countP fun p => p.1 == p.2

@[simp] theorem equalNeighbours_singleton (b : Level) : equalNeighbours [b] = 0 := rfl

theorem equalNeighbours_cons_cons (b c : Level) (bs : List Level) :
    equalNeighbours (b :: c :: bs) = (if b = c then 1 else 0) + equalNeighbours (c :: bs) := by
  simp [equalNeighbours, List.countP_cons, Nat.add_comm]

theorem msbBits_eq_cons {n : Nat} (v : BitVec (n + 1)) :
    msbBits v = v.getLsbD n :: (List.range n).map fun j => v.getLsbD (n - 1 - j) := by
  simp [msbBits, List.range_succ_eq_map, Function.comp_def, Nat.sub_sub, Nat.add_comm]

theorem zip_tail_msbBits {n : Nat} (v : BitVec (n + 1)) :
    (msbBits v).zip (msbBits v).tail =
      (List.range n).map fun j => (v.getLsbD (n - j), v.getLsbD (n - 1 - j)) :=
  List.ext_getElem (by simp) fun i _ _ => by simp [getElem_msbBits, Nat.sub_sub, Nat.add_comm]

/-- Bit `j` of a string sent from bit `n` down is bit `n - j` of the word. -/
theorem equalNeighbours_msbBits {n : Nat} (v : BitVec (n + 1)) : equalNeighbours (msbBits v) =
    ((List.range n).filter fun j => v.getLsbD (n - 1 - j) == v.getLsbD (n - j)).length := by
  rw [equalNeighbours, zip_tail_msbBits, List.countP_map, List.countP_eq_length_filter]
  simp only [Function.comp_def, Bool.beq_comm]

theorem getLastD_msbBits {n : Nat} (v : BitVec (n + 1)) (l : Level) :
    (msbBits v).getLastD l = v.getLsbD 0 := by
  simp [List.getLastD_eq_getLast?, List.getLast?_eq_getElem?, msbBits]

end Sys2Proof

namespace Sys2Proof.Machine

/-! ### Counting edges -/

theorem length_edgesOf_cons (g : Segment) (gs : List Segment) (t : Nat) (l : Level) :
    (edgesOf (g :: gs) t l).length =
      (if g.level = l then 0 else 1) + (edgesOf gs (t + g.duration) g.level).length := by
  by_cases h : g.level = l <;> simp [edgesOf, h, Nat.add_comm]

/-- Every edge toggles the line, so their number is even if the line ends where it began. -/
theorem even_length_edgesOf_iff (gs : List Segment) (t : Nat) (l : Level) :
    Even (edgesOf gs t l).length ↔ levelAfter gs l = l := by
  induction gs generalizing t l with
  | nil => simp [edgesOf, levelAfter]
  | cons g gs ih =>
    rw [length_edgesOf_cons, levelAfter_cons]
    by_cases h : g.level = l
    · rw [if_pos h, Nat.zero_add, ih, h]
    · rw [if_neg h, Nat.add_comm, Nat.even_add_one, ih, Bool.eq_not.2 h, Bool.not_eq_not]

theorem length_edgesOf_segIdle (tt : TimingTable) (t : Nat) (l : Level) :
    (edgesOf (segIdle tt) t l).length = if l then 0 else 1 := by
  cases l <;> rfl

/-- R104: from a line at `l`, a mid-bit edge for every bit, an edge at the start of every bit that
finds the line at its own level, and one for the return to idle from a last 0. -/
theorem length_edgesOf_segBits_segIdle (tt : TimingTable) (bs : List Level) (t : Nat) (l : Level) :
    (edgesOf (segBits tt bs ++ segIdle tt) t l).length =
      bs.length + equalNeighbours (l :: bs) + if bs.getLastD l then 0 else 1 := by
  induction bs generalizing t l with
  | nil => simpa [segBits] using length_edgesOf_segIdle tt t l
  | cons b bs ih =>
    have hmid : ¬ b = !b := by simp
    have hstart : (if (!b) = l then 0 else 1) = if l = b then 1 else 0 := by
      cases b <;> cases l <;> rfl
    simp only [segBits_cons, List.cons_append, length_edgesOf_cons, ih, hstart, if_neg hmid,
      List.length_cons, equalNeighbours_cons_cons, List.getLastD_cons]
    omega

/-! ### `TRANSFER` -/

theorem segmentsOf_transferRequest (tt : TimingTable) (a d : Byte) :
    segmentsOf tt (transferRequest a d) = segBits tt (msbBits (txFrame a d)) ++ segIdle tt := by
  show segBits tt (sentBits 17 (txFrame a d)) ++ segIdle tt = _
  rw [sentBits, BitVec.setWidth_eq]

/-- R105: the number of edges of `TRANSFER a, d` from an idle line. -/
def transferEdges (a d : Byte) : Nat :=
  1 + 17 + ((List.range 16).filter fun j =>
      (txFrame a d).getLsbD (15 - j) == (txFrame a d).getLsbD (16 - j)).length +
    if d.getLsbD 0 then 0 else 1

/-- The start bit finds the idle line at its own level, which makes the first edge. -/
theorem length_edgesOf_transferRequest (tt : TimingTable) (a d : Byte) (t : Nat) :
    (edgesOf (segmentsOf tt (transferRequest a d)) t true).length = transferEdges a d := by
  have hstart : (txFrame a d).getLsbD 16 = true := by
    rw [txFrame, BitVec.getLsbD_append, BitVec.getLsbD_append]
    rfl
  have hlast : (txFrame a d).getLsbD 0 = d.getLsbD 0 := by
    rw [txFrame, BitVec.getLsbD_append]
    rfl
  have hcount : equalNeighbours (true :: msbBits (txFrame a d)) =
      1 + equalNeighbours (msbBits (txFrame a d)) := by
    rw [msbBits_eq_cons, equalNeighbours_cons_cons, hstart, if_pos rfl]
  rw [segmentsOf_transferRequest, length_edgesOf_segBits_segIdle, length_msbBits, hcount,
    equalNeighbours_msbBits, getLastD_msbBits, hlast, transferEdges, ← Nat.add_assoc,
    Nat.add_comm 17 1]

/-- The idle gap brings the line back to 1. -/
theorem even_length_edgesOf_append_segIdle (gs : List Segment) (tt : TimingTable) (t : Nat) :
    Even (edgesOf (gs ++ segIdle tt) t true).length :=
  (even_length_edgesOf_iff _ t true).2 (by simp [levelAfter, segIdle])

/-- All seventeen bits have a mid-bit edge, and sixteen pairs of neighbours can be equal. -/
theorem transferEdges_bounds (a d : Byte) : 18 ≤ transferEdges a d ∧ transferEdges a d ≤ 35 := by
  have hpairs := List.length_filter_le
    (fun j => (txFrame a d).getLsbD (15 - j) == (txFrame a d).getLsbD (16 - j)) (List.range 16)
  rw [List.length_range] at hpairs
  unfold transferEdges
  constructor <;> split <;> omega

/-- Settles O28: the general count on the bits of the frame, whose bound of 35 is odd, while the
idle gap makes the number even. -/
theorem transferEdgeCount : Obligations.TransferEdgeCount := by
  refine ⟨fun tt a d t => ?_, fun tt t => ?_⟩
  · have hcount := length_edgesOf_transferRequest tt a d t
    have heven := even_length_edgesOf_append_segIdle (segBits tt (msbBits (txFrame a d))) tt t
    rw [← segmentsOf_transferRequest, Nat.even_iff] at heven
    obtain ⟨hlow, hhigh⟩ := transferEdges_bounds a d
    exact ⟨hcount, heven, by omega, by omega⟩
  · simp only [length_edgesOf_transferRequest]
    decide

end Sys2Proof.Machine
end

section
/-!
Before `CONFIGURE`: what reads the table is refused, and the Receiver reads as at power-on until
then, since only edges put anything into it and they need the table (70_reset_and_hazards.md, R134).
-/

namespace Sys2Proof.Machine

open State

variable {s t : State}

/-! ### The refusals -/

/-- R134: a request waits for segments, whose durations are the table's. -/
theorem submit_of_unconfigured (r : TxRequest) (htt : s.tt = none) :
    s.submit r = .refused .notConfigured := needTable_of_none htt

theorem exec_onEdge_of_unconfigured (htt : s.tt = none) :
    exec .onEdge s = .refused .notConfigured := needTable_of_none htt

/-- R49, R134: without thresholds no interval has a class. -/
theorem exec_row_of_unconfigured (k : IntervalClass) (htt : s.tt = none) :
    exec k.row s = .refused .notConfigured := by
  rw [exec_row, takeEdgeIf, needTable_of_none htt]

/-! ### The status read -/

/-- R88: a read finds nothing to clear where the flag is clear. -/
theorem readClears_of_not_ready (c : Config) {rx : ReceiverState} (h : rx.frameReady = false) :
    readClears c rx = rx := by
  simp [readClears, h]

theorem statusBits_of_empty {rx : ReceiverState} (h : rx.accumulatedBits = 0) :
    statusBits rx = 0 := congrArg (BitVec.ofNat 16) h

/-- R134: a Receiver with flag and register clear answers `(false, 0)`, and only the port tells. -/
theorem exec_readStatus_of_clear (hflag : s.rx.frameReady = false)
    (hbits : s.rx.accumulatedBits = 0) :
    exec .readStatus s = .next (s.emit (.status false 0)) := by
  simp only [exec, execReadStatus, readClears_of_not_ready s.cfg hflag, statusBits_of_empty hbits,
    hflag, withRx]

/-! ### The Receiver until `CONFIGURE` -/

theorem clearUntilConfigured_of_configured {tt : TimingTable} (htt : s.tt = some tt) :
    s.ClearUntilConfigured := fun hnone => nomatch htt.symm.trans hnone

/-- The transmit agent leaves table and Receiver alone. -/
theorem TransmitFrame.clearUntilConfigured (hf : TransmitFrame s t)
    (hs : s.ClearUntilConfigured) : t.ClearUntilConfigured := by
  intro htt
  rw [hf.rx]
  exact hs (hf.tt.symm.trans htt)

/-- R134: `CONFIGURE` ends the claim, a read of a clear Receiver changes nothing in it, what delivers
edges needs the table, and a request is the transmit agent's. -/
theorem exec_keeps_clearUntilConfigured {i : Instr} (h : exec i s = .next t)
    (hs : s.ClearUntilConfigured) : t.ClearUntilConfigured := by
  obtain ⟨_, _, _, rfl⟩ | ⟨_, rfl⟩ | ⟨tt, htt, _, rfl⟩ | ⟨tt, d, htt, _, rfl⟩ | ⟨_, r, h⟩ :=
    exec_cases h
  case inl => exact clearUntilConfigured_of_configured rfl
  case inr.inl =>
    intro htt
    obtain ⟨hflag, hbits⟩ := hs htt
    rw [emit_rx, withRx_rx, readClears_of_not_ready s.cfg hflag]
    exact ⟨hflag, hbits⟩
  case inr.inr.inl => exact clearUntilConfigured_of_configured htt
  case inr.inr.inr.inl => exact clearUntilConfigured_of_configured htt
  case inr.inr.inr.inr => exact (submit_frame h).clearUntilConfigured hs

/-- Of what can arrive only operations and edges reach table or Receiver. -/
theorem deliver_keeps_clearUntilConfigured {a : Input} (h : s.deliver a = .next t)
    (hs : s.ClearUntilConfigured) : t.ClearUntilConfigured := by
  obtain ⟨i, h⟩ | ⟨p, rfl, _⟩ | ⟨l, _, h⟩ | ⟨io, rfl, _⟩ := deliver_cases h
  case inl =>
    obtain ⟨_, _, rfl⟩ | ⟨_, h⟩ := deliverInstr_cases h
    · exact hs
    · exact exec_keeps_clearUntilConfigured h hs
  case inr.inl => exact hs
  case inr.inr.inl => exact exec_keeps_clearUntilConfigured h hs
  case inr.inr.inr => exact hs

/-- A step is a delivery or a move of the transmit agent. -/
theorem step_keeps_clearUntilConfigured (h : step s = .next t) (hs : s.ClearUntilConfigured) :
    t.ClearUntilConfigured := by
  obtain ⟨a, as, _, _, h | ⟨_, h⟩⟩ | ⟨_, k, r, tt, _, _, h⟩ | h := move_cases h
  · exact deliver_keeps_clearUntilConfigured h hs
  · exact deliver_keeps_clearUntilConfigured h hs
  · exact (begin_frame h).clearUntilConfigured hs
  · exact (advance_frame h).clearUntilConfigured hs

/-- Settles O10: the operations named are requests or edges, both of which read the table; the
answer of the read rests on a clear Receiver, which every step keeps until `CONFIGURE`. -/
theorem useBeforeConfigureRefused : Obligations.UseBeforeConfigureRefused := by
  refine ⟨fun s i htt hi => ?_, fun s htt hs => ?_, fun c => ⟨rfl, fun _ => ⟨rfl, rfl⟩⟩,
    fun s t hs h => step_keeps_clearUntilConfigured h hs⟩
  · obtain ⟨b, rfl⟩ | ⟨v, rfl⟩ | rfl | ⟨a, d, rfl⟩ | rfl | rfl | rfl | rfl := hi
    · exact submit_of_unconfigured (bitRequest b) htt
    · exact submit_of_unconfigured (byteRequest v) htt
    · exact submit_of_unconfigured idleRequest htt
    · exact submit_of_unconfigured (transferRequest a d) htt
    · exact exec_onEdge_of_unconfigured htt
    · exact exec_row_of_unconfigured .reset htt
    · exact exec_row_of_unconfigured .long htt
    · exact exec_row_of_unconfigured .short htt
  · obtain ⟨hflag, hbits⟩ := hs htt
    exact exec_readStatus_of_clear hflag hbits

end Sys2Proof.Machine
end

section
/-!
The decoder against the encoder: bit strings as numbers, the fields of a command word, and the two
directions of the round trip (30_encoding.md sections 1, 2, 5 and 6).
-/

namespace Sys2Proof

open Sys2Proof.Machine Sys2Proof.Machine.State

/-! ### Bit strings as numbers (R52) -/

theorem foldl_msb (bs : List Level) (n : Nat) :
    bs.foldl (fun acc b => 2 * acc + b.toNat) n = n * 2 ^ bs.length + ofMsbBits bs := by
  unfold ofMsbBits
  induction bs generalizing n with
  | nil => simp
  | cons b bs ih =>
    rw [List.foldl_cons, List.foldl_cons, ih, ih (2 * 0 + b.toNat), List.length_cons, pow_succ]
    ring

theorem ofMsbBits_append (bs cs : List Level) :
    ofMsbBits (bs ++ cs) = ofMsbBits bs * 2 ^ cs.length + ofMsbBits cs := by
  rw [ofMsbBits, List.foldl_append, foldl_msb, ← ofMsbBits]

theorem ofMsbBits_cons (b : Level) (bs : List Level) :
    ofMsbBits (b :: bs) = b.toNat * 2 ^ bs.length + ofMsbBits bs := by
  cases b <;> exact ofMsbBits_append [_] bs

theorem ofMsbBits_lt (bs : List Level) : ofMsbBits bs < 2 ^ bs.length := by
  induction bs with
  | nil => decide
  | cons b bs ih =>
    rw [ofMsbBits_cons, List.length_cons, pow_succ]
    cases b <;> simp only [Bool.toNat_true, Bool.toNat_false] <;> omega

/-- Strings of one length are told apart by their numbers. -/
theorem eq_of_ofMsbBits_eq {bs cs : List Level} (hlen : bs.length = cs.length)
    (h : ofMsbBits bs = ofMsbBits cs) : bs = cs := by
  induction bs generalizing cs with
  | nil => exact (List.length_eq_zero_iff.1 hlen.symm).symm
  | cons b bs ih =>
    obtain ⟨c, cs, rfl⟩ := List.exists_cons_of_length_eq_add_one hlen.symm
    have hlen : bs.length = cs.length := Nat.succ.inj hlen
    have hbs := ofMsbBits_lt bs
    have hcs := ofMsbBits_lt cs
    rw [ofMsbBits_cons, ofMsbBits_cons, hlen] at h
    rw [hlen] at hbs
    have hbc : b = c := by cases b <;> cases c <;> simp at h ⊢ <;> omega
    rw [hbc] at h ⊢
    rw [ih hlen (Nat.add_left_cancel h)]

/-- A word is the number of its bits, the most significant one first. -/
theorem ofMsbBits_msbBits {n : Nat} (v : BitVec n) : ofMsbBits (msbBits v) = v.toNat := by
  induction n with
  | zero => rw [BitVec.eq_nil v]; rfl
  | succ n ih =>
    have htail : msbBits v = v.getLsbD n :: msbBits (v.setWidth n) := by
      refine (msbBits_eq_cons v).trans (congrArg _ (List.map_congr_left fun j hj => ?_))
      have hj := List.mem_range.1 hj
      simp [show n - 1 - j < n by omega]
    rw [htail, ofMsbBits_cons, ih, length_msbBits, BitVec.toNat_setWidth, BitVec.getLsbD,
      Nat.toNat_testBit, Nat.mul_comm, Nat.add_comm, ← Nat.mod_pow_succ, Nat.mod_eq_of_lt v.isLt]

theorem byteOf_msbBits (v : Byte) : byteOf (msbBits v) = v := by
  rw [byteOf, ofMsbBits_msbBits, BitVec.ofNat_toNat, BitVec.setWidth_eq]

theorem msbBits_byteOf {bs : List Level} (h : bs.length = 8) : msbBits (byteOf bs) = bs := by
  refine eq_of_ofMsbBits_eq (by rw [length_msbBits, h]) ?_
  rw [ofMsbBits_msbBits, byteOf, BitVec.toNat_ofNat, Nat.mod_eq_of_lt (h ▸ ofMsbBits_lt bs)]

/-! ### The fields of a command word (R53) -/

@[simp] theorem op_commandWord (op : BitVec 3) (a d : Byte) :
    (commandWord op a d).extractLsb' 16 3 = op := by
  rw [commandWord, BitVec.extractLsb'_append_eq_of_le (by decide),
    BitVec.extractLsb'_append_eq_of_le (by decide), BitVec.extractLsb'_eq_self]

@[simp] theorem data_commandWord (op : BitVec 3) (a d : Byte) :
    (commandWord op a d).extractLsb' 0 8 = d := BitVec.extractLsb'_append_eq_right

@[simp] theorem address_commandWord (op : BitVec 3) (a d : Byte) :
    (commandWord op a d).extractLsb' 8 8 = a := by
  rw [commandWord, BitVec.extractLsb'_append_eq_of_le (by decide)]
  exact BitVec.extractLsb'_append_eq_right

/-! ### The line formats (R45, R47, R48, R74) -/

theorem decodeLine_of_payload {bs : List Level} (h : 2 ≤ bs.length) :
    decodeLine (true :: bs) = decodePayload bs := by
  match bs with
  | _ :: _ :: _ => simp [decodeLine]

theorem decodeLine_of_low {bs : List Level} (h : 2 ≤ bs.length) :
    decodeLine (false :: bs) =
      if bs.length = 8 ∨ bs.length = 16 then .error .noStartBit else .error .noSuchFormat := by
  match bs with
  | _ :: _ :: _ => simp [decodeLine]

theorem decodeLine_frameRx (d : Byte) : decodeLine (true :: msbBits d) = .ok (.frameRx d) := by
  rw [decodeLine_of_payload (by simp), decodePayload, if_pos (length_msbBits d), byteOf_msbBits]

theorem decodeLine_frameTx (a d : Byte) :
    decodeLine (true :: (msbBits a ++ msbBits d)) = .ok (.frameTx a d) := by
  have ha : (msbBits a).length = 8 := length_msbBits a
  rw [decodeLine_of_payload (by simp), decodePayload, if_neg (by simp), if_pos (by simp),
    List.take_left' ha, List.drop_left' ha, byteOf_msbBits, byteOf_msbBits]

/-- A payload that decodes has the length of a byte or of two, and is sent as it was read. -/
theorem encode_of_decodePayload {bs : List Level} {i : Instr} (h : decodePayload bs = .ok i) :
    i.hasOwnBits = true ∧ encode i = .line (true :: bs) := by
  unfold decodePayload at h
  split at h
  · next h8 =>
    cases h
    exact ⟨rfl, by rw [encode, msbBits_byteOf h8]⟩
  · split at h
    · next h16 =>
      cases h
      refine ⟨rfl, ?_⟩
      rw [encode, msbBits_byteOf (by simp [h16]), msbBits_byteOf (by simp [h16]),
        List.take_append_drop]
    · cases h

/-- Every line format that decodes is the encoder's own bit string. -/
theorem encode_of_decodeLine {bs : List Level} {i : Instr} (h : decodeLine bs = .ok i) :
    i.hasOwnBits = true ∧ encode i = .line bs := by
  match bs with
  | [] => cases h
  | [true] => cases h; exact ⟨rfl, rfl⟩
  | [false] => cases h
  | [true, false] => cases h; exact ⟨rfl, rfl⟩
  | [false, true] => cases h; exact ⟨rfl, rfl⟩
  | [true, true] => cases h
  | [false, false] => cases h
  | true :: b :: c :: bs =>
    rw [decodeLine_of_payload (by simp)] at h
    exact encode_of_decodePayload h
  | false :: b :: c :: bs =>
    rw [decodeLine_of_low (by simp)] at h
    split at h <;> cases h

/-! ### The command words (R53) -/

/-- A command word decodes to an operation of its own operation code. -/
theorem encode_decodeCommand (w : CmdWord) :
    (decodeCommand w).hasOwnBits = true ∧ ∃ v : CmdWord,
      encode (decodeCommand w) = .command v ∧ v.extractLsb' 16 3 = w.extractLsb' 16 3 := by
  have hop (op : BitVec 3) (a d : Byte) (h : (w.extractLsb' 16 3).toNat = op.toNat) :
      (commandWord op a d).extractLsb' 16 3 = w.extractLsb' 16 3 := by
    rw [op_commandWord, BitVec.eq_of_toNat_eq h]
  have hlt : (w.extractLsb' 16 3).toNat < 8 := BitVec.isLt _
  unfold decodeCommand
  split
  case h_1 h => exact ⟨rfl, _, rfl, hop 0b000 0 0 h⟩
  case h_2 h => exact ⟨rfl, _, rfl, hop 0b001 _ _ h⟩
  case h_3 h => exact ⟨rfl, _, rfl, hop 0b010 _ _ h⟩
  case h_4 h => exact ⟨rfl, _, rfl, hop 0b011 0 0 h⟩
  case h_5 h => exact ⟨rfl, _, rfl, hop 0b100 _ _ h⟩
  case h_6 h => exact ⟨rfl, _, rfl, hop 0b101 0 0 h⟩
  case h_7 h => exact ⟨rfl, _, rfl, hop 0b110 0 0 h⟩
  case h_8 h0 h1 h2 h3 h4 h5 h6 =>
    have h : (w.extractLsb' 16 3).toNat = 7 := by grind
    exact ⟨rfl, _, rfl, hop 0b111 0 0 h⟩

theorem decodeCommand_emitBit (b : Level) :
    decodeCommand (commandWord 0b001 0 ((BitVec.ofBool b).setWidth 8)) = .emitBit b := by
  cases b <;> decide

theorem decodeCommand_emitByte (v : Byte) :
    decodeCommand (commandWord 0b010 0 v) = .emitByte v := by
  simp [decodeCommand]

theorem decodeCommand_transfer (a d : Byte) :
    decodeCommand (commandWord 0b100 a d) = .transfer a d := by
  simp [decodeCommand]

/-! ### The round trips -/

/-- The reserved code has its word too; only the interval classes have none. -/
theorem decode_encode {i : Instr} (h : i.hasOwnBits = true) : decode (encode i) = .ok i := by
  cases i with
  | configure => rfl
  | emitBit b => exact congrArg Except.ok (decodeCommand_emitBit b)
  | emitByte v => exact congrArg Except.ok (decodeCommand_emitByte v)
  | emitIdle => rfl
  | transfer a d => exact congrArg Except.ok (decodeCommand_transfer a d)
  | onEdge => rfl
  | onEdgeReset => cases h
  | onEdgeLong => cases h
  | onEdgeShort => cases h
  | readStatus => rfl
  | reserved111 => rfl
  | symBit0 => rfl
  | symBit1 => rfl
  | symIdle => rfl
  | frameTx a d => exact decodeLine_frameTx a d
  | frameRx d => exact decodeLine_frameRx d

/-- Settles O1: a well-formed operation has bits of its own, which the decoder reads back. -/
theorem decodeEncodeAgree : Obligations.DecodeEncodeAgree := by
  intro i hi
  exact decode_encode (Bool.and_eq_true_iff.1 hi).1

/-- Settles O2: for command words by the operation code, for line formats by the bits themselves. -/
theorem encodingsAreCanonicalUpToIgnoredBits :
    Obligations.EncodingsAreCanonicalUpToIgnoredBits := by
  intro e i h
  cases e with
  | command w =>
    obtain rfl : decodeCommand w = i := Except.ok.inj h
    obtain ⟨hown, hword⟩ := encode_decodeCommand w
    exact ⟨hown, decode_encode hown, nofun, fun v hv => Encoding.command.inj hv ▸ hword⟩
  | line bits =>
    obtain ⟨hown, henc⟩ := encode_of_decodeLine h
    exact ⟨hown, decode_encode hown, fun bs hbs => henc.trans hbs, nofun⟩

/-- Settles O3: each word by evaluation of the decoder. -/
theorem writtenOutWordsDecode : Obligations.WrittenOutWordsDecode := by
  unfold Obligations.WrittenOutWordsDecode
  decide

/-! ### What is no format -/

theorem decodeLine_of_no_such_length {bs : List Level} (h : bs.length ∉ [1, 2, 9, 17]) :
    decodeLine bs = .error .noSuchFormat := by
  match bs with
  | [] => rfl
  | [_] => simp at h
  | [_, _] => simp at h
  | b :: c :: d :: bs =>
    have h8 : (c :: d :: bs).length ≠ 8 := by
      intro h8
      simp [h8] at h
    have h16 : (c :: d :: bs).length ≠ 16 := by
      intro h16
      simp [h16] at h
    cases b with
    | true => rw [decodeLine_of_payload (by simp), decodePayload, if_neg h8, if_neg h16]
    | false => rw [decodeLine_of_low (by simp), if_neg (not_or.2 ⟨h8, h16⟩)]

theorem deliverEncoding_of_reject {s : State} {e : Encoding} {r : Reject}
    (h : decode e = .error r) : s.deliverEncoding e = .refused (.undecodable r) := by
  rw [deliverEncoding, h]

/-- Settles O5: the decoder's branches on length and first bit, and the delivery of what is
presented. -/
theorem nonFormatsRefused : Obligations.NonFormatsRefused := by
  refine ⟨fun b => by cases b <;> rfl, fun bs h => ?_, fun bs => decodeLine_of_no_such_length,
    fun s bs r h => ?_⟩
  · exact (decodeLine_of_low (by omega)).trans (if_pos h)
  · rw [step_present, deliverEncoding_of_reject h]

end Sys2Proof
end

section
/-!
Transmissions: how a free sequencer begins each of them, and the whole runs of the stand-alone ones
and of `TRANSFER` (41_transmitter.md, 43_transfer.md, R75, R100 to R103, R106).
-/

namespace Sys2Proof.Machine

open State

variable {s : State} {tt : TimingTable} {r : TxRequest}

/-! ### The first element -/

/-- R101: the bracket of `TRANSFER` around its segments. -/
theorem scheduleOf_of_transfer (hop : r.op = .transfer) :
    scheduleOf tt r =
      ⟨.disable, 0⟩ :: (driveAll (segmentsOf tt r) ++ [⟨.enable, 0⟩]) := by
  rw [scheduleOf, hop]

/-- A free sequencer has taken the `TRANSFER` `r` and disabled edge detection (R100). -/
def State.opened (s : State) (r : TxRequest) : State :=
  { s with
    tx := { s.tx with busy := true, step := 0, timer := 0, frame := r.frame, op := r.op }
    io := { s.io with edgeDetect := false }
    trace := (s.tick, .disableInputEdgeDetection 0) :: s.trace }

/-- A transmission outside the bracket begins with its first segment. -/
theorem begin_of_ne_transfer {g : Segment} (hop : r.op ≠ .transfer)
    (hg : (segmentsOf tt r).head? = some g) : s.begin tt r = .next ((s.taking r).driven 0 g) := by
  obtain ⟨gs, hgs⟩ := List.head?_eq_some_iff.1 hg
  have hfirst : (scheduleOf tt r)[0]? = some ⟨.drive g.level, g.duration⟩ := by
    simp [scheduleOf_of_ne_transfer hop, hgs, driveAll]
  exact enterElement_drive (s := s.taking r) hfirst

/-- R102: step 0 of the schedule of `TRANSFER` is the disable, whose failure is refused. -/
theorem begin_of_transfer (hop : r.op = .transfer) :
    s.begin tt r =
      if s.io.disableResult = 0 then .next (s.opened r) else .refused .disableFailed := by
  have hfirst : (scheduleOf tt (s.taking r).request)[0]? = some ⟨.disable, 0⟩ := by
    rw [request_taking, scheduleOf_of_transfer hop, List.getElem?_cons_zero]
  rw [begin_eq, enterElement, hfirst]
  rfl

/-! ### What begins at once -/

theorem head?_segmentsOf_bitRequest (b : Level) :
    (segmentsOf tt (bitRequest b)).head? = some ⟨!b, tt.halfBit⟩ := by
  rw [segmentsOf_bitRequest]
  rfl

theorem head?_segmentsOf_byteRequest (v : Byte) :
    (segmentsOf tt (byteRequest v)).head? = some ⟨!v[7], tt.halfBit⟩ := by
  show (segBits tt (sentBits 8 (byteRequest v).frame)).head? = _
  rw [sentBits_byteRequest, msbBits_byte]
  rfl

theorem head?_segmentsOf_frameRequest (a d : Byte) :
    (segmentsOf tt (frameRequest a d)).head? = some ⟨false, tt.halfBit⟩ := by
  show (segBits tt (sentBits 17 (txFrame a d)) ++ segIdle tt).head? = _
  rw [sentBits_txFrame]
  rfl

/-- Settles O17: each row hands its request to the free sequencer, which enters the first
segment. -/
theorem transmissionsBegin : Obligations.TransmissionsBegin := by
  intro s tt i op frame l w htt hfree hi
  obtain ⟨r, hexec, hop, rfl, rfl, hhead⟩ : ∃ r, exec i s = s.submit r ∧ r.op ≠ .transfer ∧
      r.op = op ∧ r.frame = frame ∧ (segmentsOf tt r).head? = some ⟨l, w⟩ := by
    obtain ⟨b, rfl, rfl, rfl, rfl, rfl⟩ | ⟨v, rfl, rfl, rfl, rfl, rfl⟩ | ⟨rfl, rfl, rfl, rfl, rfl⟩ |
      ⟨rfl, rfl, rfl, rfl, rfl⟩ | ⟨rfl, rfl, rfl, rfl, rfl⟩ | ⟨rfl, rfl, rfl, rfl, rfl⟩ |
      ⟨a, d, rfl, rfl, rfl, rfl, rfl⟩ := hi
    · exact ⟨_, rfl, nofun, rfl, bitRequest_frame b, head?_segmentsOf_bitRequest b⟩
    · exact ⟨_, rfl, nofun, rfl, rfl, head?_segmentsOf_byteRequest v⟩
    · exact ⟨_, rfl, nofun, rfl, rfl, rfl⟩
    · exact ⟨_, rfl, nofun, rfl, rfl, head?_segmentsOf_bitRequest false⟩
    · exact ⟨_, rfl, nofun, rfl, rfl, head?_segmentsOf_bitRequest true⟩
    · exact ⟨_, rfl, nofun, rfl, rfl, rfl⟩
    · exact ⟨_, rfl, nofun, rfl, rfl, head?_segmentsOf_frameRequest a d⟩
  rw [hexec, submit_of_free htt hfree.1 hfree.2, begin_of_ne_transfer hop hhead]
  rfl

/-- Settles O20: the rows named hand their request to the sequencer, whose run is that of its
segments. -/
theorem transmissionsRunTheirSegments : Obligations.TransmissionsRunTheirSegments := by
  intro s tt i r htt hfree hin htick hi
  obtain ⟨hexec, hop⟩ : exec i s = s.submit r ∧ r.op ≠ .transfer := by
    obtain ⟨b, rfl, rfl⟩ | ⟨v, rfl, rfl⟩ | ⟨rfl, rfl⟩ | ⟨rfl, rfl⟩ | ⟨rfl, rfl⟩ | ⟨rfl, rfl⟩ |
      ⟨a, d, rfl, rfl⟩ := hi
    all_goals exact ⟨rfl, nofun⟩
  rw [hexec]
  exact runSteps_submit hop htt hfree hin htick

/-- Settles O24: every row that sends hands its request to the sequencer, which is not free. -/
theorem busySequencerHoldsRequests : Obligations.BusySequencerHoldsRequests := by
  intro s i r htt hfree hi
  have hexec : exec i s = s.submit r := by
    obtain ⟨a, d, rfl, rfl⟩ | ⟨b, rfl, rfl⟩ | ⟨v, rfl, rfl⟩ | ⟨rfl, rfl⟩ | ⟨rfl, rfl⟩ |
      ⟨rfl, rfl⟩ | ⟨rfl, rfl⟩ | ⟨a, d, rfl, rfl⟩ := hi
    all_goals rfl
  rw [hexec, submit_of_not_free htt hfree]
  rfl

/-! ### `TRANSFER` -/

/-- R100, R102: what a `TRANSFER` does at once on a free sequencer. -/
theorem exec_transfer_of_free (a d : Byte) (htt : s.tt = some tt) (hfree : s.Free) :
    exec (.transfer a d) s =
      if s.io.disableResult = 0 then .next (s.opened (transferRequest a d))
      else .refused .disableFailed :=
  (submit_of_free htt hfree.1 hfree.2).trans (begin_of_transfer rfl)

/-- Settles O21: the first element is the disable, here with success. -/
theorem transferBegins : Obligations.TransferBegins := by
  intro s tt a d htt hfree hok
  rw [exec_transfer_of_free a d htt hfree, if_pos hok]
  rfl

/-- Settles O23: the first element is the disable, here with a failure. -/
theorem failedDisableRefused : Obligations.FailedDisableRefused := by
  intro s tt a d htt hfree hfail
  rw [exec_transfer_of_free a d htt hfree, if_neg hfail]

theorem durationOf_append (gs hs : List Segment) :
    durationOf (gs ++ hs) = durationOf gs + durationOf hs := by
  simp [durationOf]

theorem durationOf_segBits (tt : TimingTable) (bs : List Level) :
    durationOf (segBits tt bs) = 2 * bs.length * tt.halfBit := by
  simpa [List.take_of_length_le] using durationOf_take_segBits tt bs (2 * bs.length) le_rfl

/-- Call `k` of a segment list comes after the segments before it (R75). -/
theorem getElem?_callsOf (w : Nat) (gs : List Segment) (t k : Nat) :
    (callsOf w gs t)[k]? = gs[k]?.map fun g =>
      ((t + durationOf (gs.take k)) % 2 ^ w, .setOutputLevel g.level) := by
  induction gs generalizing t k with
  | nil => rfl
  | cons g gs ih =>
    cases k with
    | zero => simp [callsOf]
    | succ k => simp [callsOf, ih, Nat.add_assoc]

theorem callsOf_append (w : Nat) (gs hs : List Segment) (t : Nat) :
    callsOf w (gs ++ hs) t = callsOf w gs t ++ callsOf w hs (t + durationOf gs) := by
  induction gs generalizing t with
  | nil => rfl
  | cons g gs ih => simp [callsOf, ih, Nat.add_assoc]

/-- R101: the half-bit slots of a transmit frame are its segments. -/
theorem getElem?_segBits_txFrame (tt : TimingTable) (a d : Byte) {k : Nat} (hk : k < 34) :
    (segBits tt (msbBits (txFrame a d)))[k]? = some ⟨frameSlot a d k, tt.halfBit⟩ := by
  have hbit : (msbBits (txFrame a d)).getD (k / 2) false =
      ((1 : BitVec 1) ++ a ++ d).getLsbD (16 - k / 2) := by
    rw [List.getD_eq_getElem _ _ (by rw [length_msbBits]; omega), getElem_msbBits]
    rfl
  rw [getElem?_segBits tt _ k (by rw [length_msbBits]; omega), hbit]
  rfl

theorem callsOf_segBits_txFrame (w : Nat) (tt : TimingTable) (a d : Byte) (t : Nat) :
    callsOf w (segBits tt (msbBits (txFrame a d))) t =
      (List.range 34).map fun k =>
        ((t + k * tt.halfBit) % 2 ^ w, .setOutputLevel (frameSlot a d k)) := by
  refine List.ext_getElem? fun k => ?_
  have hlen : 2 * (msbBits (txFrame a d)).length = 34 := by rw [length_msbBits]
  rw [getElem?_callsOf, List.getElem?_map]
  by_cases hk : k < 34
  · rw [getElem?_segBits_txFrame tt a d hk, List.getElem?_range hk,
      durationOf_take_segBits tt _ k (by omega)]
    rfl
  · rw [List.getElem?_eq_none (by rw [length_segBits]; omega),
      List.getElem?_eq_none (by rw [List.length_range]; omega)]
    rfl

theorem transferRequest_op (a d : Byte) : (transferRequest a d).op = .transfer := rfl

theorem transferRequest_frame (a d : Byte) :
    (transferRequest a d).frame = (1 : BitVec 1) ++ a ++ d := rfl

theorem durationOf_transferRequest (tt : TimingTable) (a d : Byte) :
    durationOf (segmentsOf tt (transferRequest a d)) = 34 * tt.halfBit + tt.idleThreshold := by
  rw [segmentsOf_transferRequest, durationOf_append, durationOf_segBits, length_msbBits]
  rfl

theorem length_segmentsOf_transferRequest (tt : TimingTable) (a d : Byte) :
    (segmentsOf tt (transferRequest a d)).length = 35 := by
  rw [segmentsOf_transferRequest, List.length_append, length_segBits, length_msbBits]
  rfl

/-- R101: the table of the schedule. -/
theorem scheduleOf_transferRequest (tt : TimingTable) (a d : Byte) :
    scheduleOf tt (transferRequest a d) = ⟨.disable, 0⟩ ::
      (driveAll (segBits tt (msbBits (txFrame a d))) ++
        [⟨.drive true, tt.idleThreshold⟩, ⟨.enable, 0⟩]) := by
  rw [scheduleOf_of_transfer rfl, segmentsOf_transferRequest, driveAll, List.map_append,
    List.append_assoc]
  rfl

theorem enabledIo_eq (io : IoState) :
    enabledIo io = { io with edgeDetect := decide (io.enableResult = 0) } := rfl

/-- The wait is over, and the next element of the schedule has enabled detection (R101, R102). -/
def State.closed (s : State) : State :=
  (s.withTx { s.tx with step := s.tx.step + 1, timer := 0 }).enableDetection

theorem State.Sending.closed (h : s.Sending tt) : s.closed.Sending tt :=
  ⟨h.busy, h.table, h.inbox, h.tick⟩

theorem step_of_enabling (h : s.Sending tt) (h0 : s.tx.timer = 0)
    (hnext : (scheduleOf tt s.request)[s.tx.step + 1]? = some ⟨.enable, 0⟩) :
    step s = .next s.closed := by
  rw [step_of_waited h h0, enterElement, hnext]
  rfl

theorem step_of_ending (h : s.Sending tt) (h0 : s.tx.timer = 0)
    (hnext : (scheduleOf tt s.request)[s.tx.step + 1]? = none) : step s = .next s.finish :=
  (step_of_waited h h0).trans (enterElement_none hnext)

/-- After the disable of a `TRANSFER` come its segments, then two steps at one tick: the enable and
the end. -/
theorem runSteps_transfer (hop : r.op = .transfer) (hopen : (s.opened r).Sending tt) :
    runSteps (durationOf (segmentsOf tt r) + (segmentsOf tt r).length + 2) (s.opened r) =
      .next ((s.opened r).afterDriving (segmentsOf tt r)).closed.finish := by
  have hsched := scheduleOf_of_transfer (tt := tt) hop
  have hdriven := hopen.afterDriving (segmentsOf tt r)
  have hrest : (scheduleOf tt (s.opened r).request).drop 1 =
      driveAll (segmentsOf tt r) ++ [⟨.enable, 0⟩] := congrArg (List.drop 1) hsched
  have henable : (scheduleOf tt r)[0 + (segmentsOf tt r).length + 1]? = some ⟨.enable, 0⟩ := by
    simp [hsched, driveAll]
  have hend : (scheduleOf tt r)[0 + (segmentsOf tt r).length + 1 + 1]? = none := by
    simp [hsched, driveAll]
  calc runSteps (durationOf (segmentsOf tt r) + (segmentsOf tt r).length + 2) (s.opened r)
      = runSteps 2 ((s.opened r).afterDriving (segmentsOf tt r)) :=
        (congrArg (runSteps · _) (Nat.zero_add _).symm).trans (runSteps_segments hopen hrest 2)
    _ = runSteps 1 ((s.opened r).afterDriving (segmentsOf tt r)).closed :=
        runSteps_succ (step_of_enabling hdriven rfl henable) 1
    _ = .next ((s.opened r).afterDriving (segmentsOf tt r)).closed.finish :=
        runSteps_succ (step_of_ending hdriven.closed rfl hend) 0

/-- R101: the calls of the segments of a `TRANSFER`. -/
theorem callsOf_transferRequest (w : Nat) (tt : TimingTable) (a d : Byte) (t : Nat) :
    callsOf w (segmentsOf tt (transferRequest a d)) t =
      ((List.range 34).map fun k =>
        ((t + k * tt.halfBit) % 2 ^ w, .setOutputLevel (frameSlot a d k))) ++
      [((t + 34 * tt.halfBit) % 2 ^ w, .setOutputLevel true)] := by
  rw [segmentsOf_transferRequest, callsOf_append, callsOf_segBits_txFrame, durationOf_segBits,
    length_msbBits]
  rfl

theorem levelAfter_transferRequest (tt : TimingTable) (a d : Byte) (l : Level) :
    levelAfter (segmentsOf tt (transferRequest a d)) l = true := by
  simp [segmentsOf_transferRequest, levelAfter, segIdle]

/-- Settles O22: the elements are those of the table of R101, and the run is the disable, the run
over the segments, the enable and the end. -/
theorem transferRunsItsSchedule : Obligations.TransferRunsItsSchedule := by
  refine ⟨fun tt a d => ?_, fun s tt a d htt hfree hin htick hok => ?_⟩
  · have hlen : (driveAll (segBits tt (msbBits (txFrame a d)))).length = 34 := by
      rw [driveAll, List.length_map, length_segBits, length_msbBits]
    simp only [scheduleOf_transferRequest]
    refine ⟨by simp [hlen], rfl, fun k hk => ?_, ?_, ?_⟩
    · rw [Nat.add_comm, List.getElem?_cons_succ, List.getElem?_append_left (by omega), driveAll,
        List.getElem?_map, getElem?_segBits_txFrame tt a d hk]
      rfl
    · rw [List.getElem?_cons_succ, List.getElem?_append_right (by omega), hlen]
      rfl
    · rw [List.getElem?_cons_succ, List.getElem?_append_right (by omega), hlen]
      rfl
  · refine ⟨_, (exec_transfer_of_free a d htt hfree).trans (if_pos hok), ?_⟩
    have hrun := runSteps_transfer (r := transferRequest a d) rfl
      (s := s) (tt := tt) ⟨rfl, htt, hin, htick⟩
    rw [durationOf_transferRequest, length_segmentsOf_transferRequest] at hrun
    refine hrun.trans ?_
    simp [finish_eq, afterDriving, State.closed, State.opened, enabledIo_eq, transferOutputs,
      callsOf_transferRequest, durationOf_transferRequest, levelAfter_transferRequest,
      transferRequest_op, transferRequest_frame, Nat.mod_eq_of_lt htick, ← Nat.add_assoc]

end Sys2Proof.Machine
end

section
/-!
One step whose agent is known: a due input, a call of the schedule, a tick; and the values at
power-on (10_state.md, 20_memory.md section 5, 60_exceptions.md section 2).
-/

namespace Sys2Proof.Machine

open State

variable {s t : State} {tt : TimingTable} {a : Arrival} {rest : List Arrival}

/-! ### A due input -/

theorem step_of_due (ha : s.inbox = a :: rest) (hd : s.Due a) :
    step s = (s.withInbox rest).deliver a.input := move_of_due ha ((isDue_iff a).2 hd)

/-- R23: on a configured block an edge is dropped while detection is off. -/
theorem deliverInstr_eq (s : State) (i : Instr) :
    s.deliverInstr i =
      if i.isEdgeEvent = true ∧ s.tt ≠ none ∧ s.io.edgeDetect = false then .next s
      else exec i s := by
  simp [deliverInstr, dropsEdges, Option.isSome_iff_ne_none]

/-- Settles O6: the due input is delivered, decoded and run, or dropped. -/
theorem stepRunsDecodedOperation : Obligations.StepRunsDecodedOperation := by
  intro s e i a rest ha hd he hdec _
  rw [step_of_due ha hd, he, deliver_inputOf, deliverEncoding_of_decode hdec, deliverInstr_eq]
  rfl

/-- Settles O45: the drive is delivered, and its edge is the receive step at the present tick. -/
theorem lineChangesAreEdges : Obligations.LineChangesAreEdges := by
  intro s tt l a rest htt ha hd hl
  have hstep : step s = (s.withInbox rest).deliverLevel l := by rw [step_of_due ha hd, hl]; rfl
  rw [hstep, deliverLevel]
  refine ⟨fun hsame => if_pos hsame, fun hne hoff => ?_, fun hne hon => ?_⟩
  · rw [if_neg (by exact hne)]
    exact if_neg (by simp [hoff])
  · rw [if_neg (by exact hne)]
    exact (if_pos hon).trans (onEdgeIsThePureStep _ tt htt)

/-- Settles O46: the host's calls are delivered as they are. -/
theorem hostSwitchesEdgeDetection : Obligations.HostSwitchesEdgeDetection := by
  intro s a rest ha hd
  rw [step_of_due ha hd]
  refine ⟨fun h => ?_, fun h hok => ?_, fun h hfail => ?_⟩ <;> rw [h]
  · rfl
  · exact congrArg Host.Outcome.next (if_pos hok)
  · exact congrArg Host.Outcome.next (if_neg hfail)

/-- D17: a reduced code fits the wires. -/
theorem codeFits_resultCode (c : Config) (r : Int) : CodeFits c (resultCode c r) := by
  have hlow := Int.le_bmod (x := r) (Nat.two_pow_pos c.resultW)
  have hhigh := Int.bmod_lt (x := r) (Nat.two_pow_pos c.resultW)
  unfold CodeFits resultCode
  push_cast at hlow hhigh
  cases hw : c.resultW with
  | zero =>
    simp only [hw, pow_zero] at hlow hhigh ⊢
    omega
  | succ n =>
    simp only [hw, pow_succ, Nat.add_sub_cancel] at hlow hhigh ⊢
    omega

/-- D17: a reduced code is the same modulo `2^RESULT_W`. -/
theorem dvd_resultCode_sub (c : Config) (r : Int) :
    (2 ^ c.resultW : Int) ∣ resultCode c r - r := by
  exact_mod_cast Int.dvd_bmod_sub_self (x := r) (m := 2 ^ c.resultW)

/-- Settles O47: the inputs are delivered as they are, each at the width of its wires. -/
theorem portsAndCodesAreWritten : Obligations.PortsAndCodesAreWritten := by
  intro s a rest ha hd
  rw [step_of_due ha hd]
  refine ⟨fun hz h => ?_, fun now h => ?_, fun d e h => ?_⟩ <;> rw [h]
  · rfl
  · rfl
  · exact ⟨_, _, codeFits_resultCode s.cfg d, codeFits_resultCode s.cfg e,
      dvd_resultCode_sub s.cfg d, dvd_resultCode_sub s.cfg e, rfl⟩

/-! ### A tick, and a call -/

/-- R101, R117: a wait goes on, or the block is at rest. -/
theorem advance_of_idle (hwait : s.tx.busy = true → 0 < s.tx.timer)
    (hrest : s.tx.busy = false → s.held = []) : s.advance = .next s.passTick := by
  unfold advance sequencerMove
  cases hb : s.tx.busy with
  | true => simp [(hwait hb).ne']
  | false => simp [hrest hb]

/-- Settles O7: no input is at its tick, and the transmit agent has nothing to do but wait. -/
theorem timePassesWhenNothingIsDue : Obligations.TimePassesWhenNothingIsDue := by
  intro s hlater hwait hrest
  rw [step, move_of_later hlater, advance_of_idle hwait hrest, passTick]
  cases s.inbox <;> rfl

theorem move_of_busy (hb : s.tx.busy = true)
    (hundue : ∀ a rest, s.inbox = a :: rest → ¬ s.Due a) : s.move = s.advance := by
  unfold move
  split
  · rfl
  · next a rest ha =>
    rw [if_neg (fun hd => hundue a rest ha ((isDue_iff a).1 hd)), if_neg (by simp [hb])]

/-- R106: an input at its tick that is not due waits for what the held requests do. -/
theorem move_of_waiting (ha : s.inbox = a :: rest) (h0 : a.delay = 0) (hundue : ¬ s.Due a)
    (hb : s.tx.busy = false) :
    s.move = s.serveHeld fun u => (u.withInbox rest).deliver a.input := by
  have hlater : ¬ s.isDue a = true := fun hd => hundue ((isDue_iff a).1 hd)
  simp [move, ha, hlater, h0, hb]

/-- The wait is over: the transmit agent enters the next element (R101). -/
theorem advance_of_waited (htt : s.tt = some tt) (hb : s.tx.busy = true) (h0 : s.tx.timer = 0) :
    s.advance = s.enterElement tt (s.tx.step + 1) := by
  rw [advance, if_pos hb, sequencerMove, if_pos h0, needTable_of_some htt]

theorem advance_next_of_waited (hb : s.tx.busy = true) (h0 : s.tx.timer = 0)
    (h : s.advance = .next t) :
    ∃ tt, s.tt = some tt ∧ s.enterElement tt (s.tx.step + 1) = .next t := by
  rw [advance, if_pos hb, sequencerMove, if_pos h0] at h
  exact needTable_next h

/-- R106: the sequencer is free and requests are held. -/
theorem advance_of_held (hb : s.tx.busy = false) (hheld : s.held ≠ []) :
    s.advance = s.serveHeld fun u => .next u.passTick := by
  rw [advance, if_neg (by simp [hb]), if_neg (by simpa using hheld)]

/-- Settles O8: the step enters the next element, whose action is one of the two, or there is
none. -/
theorem callsAreMadeInOrder : Obligations.CallsAreMadeInOrder := by
  intro s tt htt hb h0 hundue
  rw [step, move_of_busy hb hundue, advance_of_waited htt hb h0]
  refine ⟨fun l w hnext => ?_, fun w hnext => ?_, fun hnext => ?_⟩
  · exact enterElement_drive (g := ⟨l, w⟩) hnext
  · rw [enterElement, hnext]
    rfl
  · rw [enterElement_none hnext, finish_eq]
    split <;> rfl

/-! ### Power-on and before `CONFIGURE` -/

/-- Settles O9: each value is the one `State.resetWith` writes. -/
theorem powerOnValues : Obligations.PowerOnValues :=
  ⟨fun _ => ⟨rfl, rfl, rfl, rfl, rfl, rfl, rfl, rfl, rfl, rfl, rfl, rfl,
    fun _ hv => Nat.mod_eq_of_lt hv⟩, rfl⟩

/-- Settles O11: the rows are requests, or a frame of edges, and all of these read the table. -/
theorem lineFormatsNeedTheTable : Obligations.LineFormatsNeedTheTable := by
  intro s i htt hi
  obtain rfl | rfl | rfl | ⟨a, d, rfl⟩ | ⟨d, rfl⟩ := hi
  · exact submit_of_unconfigured (bitRequest false) htt
  · exact submit_of_unconfigured (bitRequest true) htt
  · exact submit_of_unconfigured idleRequest htt
  · exact submit_of_unconfigured (frameRequest a d) htt
  · exact needTable_of_none htt

end Sys2Proof.Machine
end

section
/-!
What a step keeps whatever arrives: the table, a transmission in progress, and the held requests
(20_memory.md section 6, 43_transfer.md, R41, R106, R107).
-/

namespace Sys2Proof.Machine

open State

variable {s t : State} {tt : TimingTable} {r : TxRequest}

/-! ### How a request begins -/

theorem exists_head?_segmentsOf (tt : TimingTable) (r : TxRequest) :
    ∃ g, (segmentsOf tt r).head? = some g := by
  obtain ⟨g, gs, hsegs⟩ := exists_segmentsOf_eq_cons tt r
  exact ⟨g, by rw [hsegs, List.head?_cons]⟩

/-- A request that leaves the hold has entered its first segment, or disabled edge detection. -/
theorem begin_cases (h : s.begin tt r = .next t) :
    (r.op ≠ .transfer ∧ ∃ g, (segmentsOf tt r).head? = some g ∧ t = (s.taking r).driven 0 g) ∨
    (r.op = .transfer ∧ s.io.disableResult = 0 ∧ t = s.opened r) := by
  by_cases hop : r.op = .transfer
  · rw [begin_of_transfer hop] at h
    split at h
    · next hok => cases h; exact .inr ⟨hop, hok, rfl⟩
    · cases h
  · obtain ⟨g, hg⟩ := exists_head?_segmentsOf tt r
    rw [begin_of_ne_transfer hop hg] at h
    cases h
    exact .inl ⟨hop, g, hg, rfl⟩

/-- A request that begins has the sequencer, and the held ones stay. -/
theorem begin_takes (h : s.begin tt r = .next t) :
    t.tx.busy = true ∧ t.request = r ∧ t.held = s.held := by
  obtain ⟨_, g, _, rfl⟩ | ⟨_, _, rfl⟩ := begin_cases h <;> exact ⟨rfl, rfl, rfl⟩

/-! ### An arrival -/

/-- What an arrival that is no request for the sequencer leaves as it was. -/
structure ArrivalFrame (s t : State) : Prop where
  cfg : t.cfg = s.cfg
  table : ∀ tt, s.tt = some tt → t.tt = some tt
  tx : t.tx = s.tx
  tick : t.tick = s.tick
  held : t.held = s.held

theorem ArrivalFrame.refl (s : State) : ArrivalFrame s s := ⟨rfl, fun _ h => h, rfl, rfl, rfl⟩

theorem exec_onEdge_next (h : exec .onEdge s = .next t) :
    ∃ tt, s.tt = some tt ∧ t = s.takeEdge (s.edgeClass tt) := by
  obtain ⟨tt, htt, h⟩ := needTable_next h
  cases h
  exact ⟨tt, htt, rfl⟩

/-- Of the operations only the requests reach the sequencer, and only `CONFIGURE` the table. -/
theorem exec_submits_or_frame {i : Instr} (h : exec i s = .next t) :
    (∃ r, s.submit r = .next t) ∨ ArrivalFrame s t := by
  obtain ⟨_, hnone, _, rfl⟩ | ⟨_, rfl⟩ | ⟨tt, _, _, rfl⟩ | ⟨tt, d, _, _, rfl⟩ | ⟨_, h⟩ :=
    exec_cases h
  · exact .inr ⟨rfl, fun tt htt => (nomatch hnone.symm.trans htt), rfl, rfl, rfl⟩
  · exact .inr ⟨rfl, fun _ h => h, rfl, rfl, rfl⟩
  · exact .inr ⟨rfl, fun _ h => h, rfl, rfl, rfl⟩
  · exact .inr ⟨rfl, fun _ h => h, rfl, rfl, rfl⟩
  · exact .inl h

/-- An arrival is a request, or leaves the table and the sequencer as they were. -/
theorem deliver_submits_or_frame {a : Input} (h : s.deliver a = .next t) :
    (∃ r, s.submit r = .next t) ∨ ArrivalFrame s t := by
  obtain ⟨i, h⟩ | ⟨p, rfl, _⟩ | ⟨l, _, h⟩ | ⟨io, rfl, _⟩ := deliver_cases h
  · obtain ⟨_, _, rfl⟩ | ⟨_, h⟩ := deliverInstr_cases h
    · exact .inr (.refl _)
    · exact exec_submits_or_frame h
  · exact .inr ⟨rfl, fun _ h => h, rfl, rfl, rfl⟩
  · obtain ⟨tt, _, rfl⟩ := exec_onEdge_next h
    exact .inr ⟨rfl, fun _ h => h, rfl, rfl, rfl⟩
  · exact .inr ⟨rfl, fun _ h => h, rfl, rfl, rfl⟩

/-! ### The table -/

/-- The open parameters are the same, and a table that has a value keeps it. -/
def TableKept (s t : State) : Prop := t.cfg = s.cfg ∧ ∀ tt, s.tt = some tt → t.tt = some tt

theorem TransmitFrame.tableKept (h : TransmitFrame s t) : TableKept s t :=
  ⟨h.cfg, fun _ htt => h.tt.trans htt⟩

theorem deliver_tableKept {a : Input} (h : s.deliver a = .next t) : TableKept s t := by
  obtain ⟨r, h⟩ | hframe := deliver_submits_or_frame h
  · exact (submit_frame h).tableKept
  · exact ⟨hframe.cfg, hframe.table⟩

theorem step_tableKept (h : step s = .next t) : TableKept s t := by
  obtain ⟨a, as, _, _, h | ⟨_, h⟩⟩ | ⟨_, k, r, tt, _, _, h⟩ | h := move_cases h
  · exact deliver_tableKept (s := s.withInbox as) h
  · exact deliver_tableKept (s := s.drawn.withInbox as) h
  · exact (begin_frame h).tableKept
  · exact (advance_frame h).tableKept

/-- Settles O14: every step keeps a table that has a value, and `CONFIGURE` is refused on one. -/
theorem tableIsConstantOfARun : Obligations.TableIsConstantOfARun :=
  ⟨fun _ _ h => step_tableKept h, fun _ => exec_configure_of_configured⟩

/-! ### A transmission in progress -/

/-- R106, R107: whatever arrives, a busy sequencer and the tick stay as they are. -/
theorem deliver_of_busy {a : Input} (hb : s.tx.busy = true) (h : s.deliver a = .next t) :
    t.tx = s.tx ∧ t.tick = s.tick := by
  obtain ⟨r, h⟩ | hframe := deliver_submits_or_frame h
  · obtain ⟨_, _, ⟨hfree, _, _⟩ | ⟨_, rfl⟩⟩ := submit_cases h
    · simp [hb] at hfree
    · exact ⟨rfl, rfl⟩
  · exact ⟨hframe.tx, hframe.tick⟩

theorem ticksLeft_congr (h : t.tx = s.tx) : t.ticksLeft tt = s.ticksLeft tt := by
  simp only [ticksLeft, request, h]

/-- In a wait one tick less is left after each tick. -/
theorem ticksLeft_passTick (h0 : s.tx.timer ≠ 0) :
    s.passTick.ticksLeft tt + 1 = s.ticksLeft tt := by
  simp only [ticksLeft, request, passTick_tx]
  omega

/-- After a wait the next element's wait is what the schedule still held. -/
theorem ticksLeft_of_entered {e : Element} (h0 : s.tx.timer = 0)
    (he : (scheduleOf tt s.request)[s.tx.step + 1]? = some e) (hreq : t.request = s.request)
    (hstep : t.tx.step = s.tx.step + 1) (htimer : t.tx.timer = e.wait) :
    t.ticksLeft tt = s.ticksLeft tt := by
  obtain ⟨hlt, rfl⟩ := List.getElem?_eq_some_iff.1 he
  simp only [ticksLeft, hreq, hstep, htimer, h0, List.drop_eq_getElem_cons hlt, List.map_cons,
    List.sum_cons, Nat.zero_add]

theorem ticksLeft_of_last (h0 : s.tx.timer = 0)
    (hnone : (scheduleOf tt s.request)[s.tx.step + 1]? = none) : s.ticksLeft tt = 0 := by
  simp [ticksLeft, h0, List.drop_eq_nil_of_le (List.getElem?_eq_none_iff.1 hnone)]

/-- What the call of an element leaves of the sequencer. -/
theorem act_keeps_tx {a : Action} (h : s.act a = .next t) :
    t.tx.busy = s.tx.busy ∧ t.tx.step = s.tx.step ∧ t.tx.timer = s.tx.timer ∧
      t.tx.frame = s.tx.frame ∧ t.tx.op = s.tx.op ∧ t.tick = s.tick := by
  have hf := act_frame h
  obtain htx | htx := hf.tx <;> rw [htx] <;> exact ⟨rfl, rfl, rfl, rfl, rfl, hf.tick⟩

/-- R107: one step of a busy block, as a measure on what is left of its transmission. -/
def KeepsPace (s t : State) (tt : TimingTable) : Prop :=
  (t.tx.busy = true →
    t.tx.op = s.tx.op ∧ t.tx.frame = s.tx.frame ∧
    (t.tx.step = s.tx.step ∨ t.tx.step = s.tx.step + 1) ∧
    ((t.tick = s.tick ∧ t.ticksLeft tt = s.ticksLeft tt) ∨
     (t.tick = (s.tick + 1) % 2 ^ s.cfg.tickW ∧ t.ticksLeft tt + 1 = s.ticksLeft tt))) ∧
  (t.tx.busy = false → t.tick = s.tick ∧ s.ticksLeft tt = 0 ∧ t.tx.step = 0)

theorem keepsPace_of_tx_eq (hb : s.tx.busy = true) (htx : t.tx = s.tx) (htick : t.tick = s.tick) :
    KeepsPace s t tt := by
  refine ⟨fun _ => ?_, fun hfree => ?_⟩
  · rw [htx]
    exact ⟨rfl, rfl, .inl rfl, .inl ⟨htick, ticksLeft_congr htx⟩⟩
  · simp [htx, hb] at hfree

theorem keepsPace_passTick (hb : s.tx.busy = true) (h0 : s.tx.timer ≠ 0) :
    KeepsPace s s.passTick tt := by
  refine ⟨fun _ => ⟨rfl, rfl, .inl rfl, .inr ⟨rfl, ticksLeft_passTick h0⟩⟩, fun hfree => ?_⟩
  simp [hb] at hfree

theorem keepsPace_enterElement (hb : s.tx.busy = true) (h0 : s.tx.timer = 0)
    (h : s.enterElement tt (s.tx.step + 1) = .next t) : KeepsPace s t tt := by
  obtain ⟨e, he, h⟩ | ⟨hnone, rfl⟩ := enterElement_cases h
  · obtain ⟨hbusy, hstep, htimer, hframe, hop, htick⟩ := act_keeps_tx h
    have hreq : t.request = s.request := by rw [request, hop, hframe]; rfl
    refine ⟨fun _ => ⟨hop, hframe, .inr hstep, .inl ⟨htick, ?_⟩⟩, fun hfree => ?_⟩
    · exact ticksLeft_of_entered h0 he hreq hstep htimer
    · simp [hbusy, hb] at hfree
  · rw [finish_eq]
    exact ⟨nofun, fun _ => ⟨rfl, ticksLeft_of_last h0 hnone, rfl⟩⟩

/-- Settles O25: an arrival leaves the busy sequencer alone, and the transmit agent waits a tick or
enters the next element. -/
theorem transmissionKeepsItsPace : Obligations.TransmissionKeepsItsPace := by
  intro s t tt htt hb h
  have hbusy (hfree : s.tx.busy = false) : False := by simp [hb] at hfree
  show KeepsPace s t tt
  obtain ⟨a, as, _, _, h | ⟨hfree, _⟩⟩ | ⟨hfree, _⟩ | h := move_cases h
  · obtain ⟨htx, htick⟩ := deliver_of_busy (s := s.withInbox as) hb h
    exact keepsPace_of_tx_eq hb htx htick
  · exact (hbusy hfree).elim
  · exact (hbusy hfree).elim
  · obtain ⟨_, h0, rfl⟩ | ⟨_, h0, tt', htt', h⟩ | ⟨hfree, _⟩ | ⟨hfree, _⟩ | ⟨hfree, _⟩ :=
      advance_cases h
    · exact keepsPace_passTick hb h0
    · obtain rfl : tt' = tt := Option.some.inj (htt'.symm.trans htt)
      exact keepsPace_enterElement hb h0 h
    · exact (hbusy hfree).elim
    · exact (hbusy hfree).elim
    · exact (hbusy hfree).elim

/-! ### The held requests -/

/-- The held requests stay, at most one newcomer behind them. -/
def HeldStay (s t : State) : Prop :=
  ∃ newcomers : List TxRequest, newcomers.length ≤ 1 ∧ t.held = s.held ++ newcomers

theorem heldStay_of_held_eq (h : t.held = s.held) : HeldStay s t :=
  ⟨[], Nat.zero_le 1, by rw [h, List.append_nil]⟩

/-- A request is taken by a free sequencer with nothing held, or is the newcomer. -/
theorem submit_heldStay (h : s.submit r = .next t) : HeldStay s t := by
  obtain ⟨tt, _, ⟨_, _, h⟩ | ⟨_, rfl⟩⟩ := submit_cases h
  · exact heldStay_of_held_eq (begin_takes h).2.2
  · exact ⟨[r], le_rfl, rfl⟩

theorem deliver_heldStay {a : Input} (h : s.deliver a = .next t) : HeldStay s t := by
  obtain ⟨r, h⟩ | hframe := deliver_submits_or_frame h
  · exact submit_heldStay h
  · exact heldStay_of_held_eq hframe.held

theorem enterElement_held {k : Nat} (h : s.enterElement tt k = .next t) : t.held = s.held := by
  obtain ⟨e, _, h⟩ | ⟨_, rfl⟩ := enterElement_cases h
  · exact (act_frame h).held
  · rw [finish_eq]

/-- R106: one occurrence of a held request has left the hold for the sequencer. -/
def TakesHeld (s t : State) : Prop :=
  t.tx.busy = true ∧ ∃ k r, s.held[k]? = some r ∧ t.held = s.held.eraseIdx k ∧ t.request = r

theorem begin_takesHeld {k : Nat} (hr : s.held[k]? = some r)
    (h : (s.drawn.withHeld (s.held.eraseIdx k)).begin tt r = .next t) : TakesHeld s t := by
  obtain ⟨hbusy, hreq, hheld⟩ := begin_takes h
  exact ⟨hbusy, k, r, hr, hheld, hreq⟩

/-- Settles O26: only a request adds to the held ones, and only a free sequencer takes one. -/
theorem heldRequestsAreNotLost : Obligations.HeldRequestsAreNotLost := by
  intro s t h
  show HeldStay s t ∨ (s.tx.busy = false ∧ TakesHeld s t)
  obtain ⟨a, as, _, _, h | ⟨_, h⟩⟩ | ⟨hfree, k, r, tt, hr, _, h⟩ | h := move_cases h
  · exact .inl (deliver_heldStay (s := s.withInbox as) h)
  · exact .inl (deliver_heldStay (s := s.drawn.withInbox as) h)
  · exact .inr ⟨hfree, begin_takesHeld hr h⟩
  · obtain ⟨_, _, rfl⟩ | ⟨_, _, tt, _, h⟩ | ⟨_, _, rfl⟩ | ⟨_, _, rfl⟩ |
      ⟨hfree, k, r, tt, hr, _, h⟩ := advance_cases h
    · exact .inl (heldStay_of_held_eq rfl)
    · exact .inl (heldStay_of_held_eq (enterElement_held h))
    · exact .inl (heldStay_of_held_eq rfl)
    · exact .inl (heldStay_of_held_eq rfl)
    · exact .inr ⟨hfree, begin_takesHeld hr h⟩

/-- R106: the free choice falls on a held request, which begins, or on none. -/
theorem serveHeld_eq (htt : s.tt = some tt) (otherwise : State → Answer) :
    (∃ k r, s.held[k]? = some r ∧
      s.serveHeld otherwise = (s.drawn.withHeld (s.held.eraseIdx k)).begin tt r) ∨
    s.serveHeld otherwise = otherwise s.drawn := by
  unfold serveHeld
  simp only
  split
  · next r hr => exact .inl ⟨_, r, hr, needTable_of_some (s := s.drawn) htt⟩
  · exact .inr rfl

/-- A step that begins a held request makes its first call. -/
theorem startsHeld_of_begin {k : Nat} (hr : s.held[k]? = some r)
    (h : step s = (s.drawn.withHeld (s.held.eraseIdx k)).begin tt r) : s.StartsHeld tt := by
  refine ⟨k, r, hr, fun hop => ?_, fun hop hok => ?_, fun hop hfail => ?_⟩
  · obtain ⟨⟨l, w⟩, hg⟩ := exists_head?_segmentsOf tt r
    exact ⟨l, w, hg, h.trans (begin_of_ne_transfer hop hg)⟩
  · exact h.trans ((begin_of_transfer hop).trans (if_pos hok))
  · exact h.trans ((begin_of_transfer hop).trans (if_neg hfail))

theorem startsHeld_or_of_serveHeld (htt : s.tt = some tt) {otherwise : State → Answer}
    (h : step s = s.serveHeld otherwise) : s.StartsHeld tt ∨ step s = otherwise s.drawn := by
  obtain ⟨k, r, hr, hserve⟩ | hserve := serveHeld_eq htt otherwise
  · exact .inl (startsHeld_of_begin hr (h.trans hserve))
  · exact .inr (h.trans hserve)

/-- Settles O27: with no input at this tick, or with one that waits, the step serves the hold. -/
theorem heldRequestsStart : Obligations.HeldRequestsStart := by
  intro s tt htt hfree hheld
  refine ⟨fun hlater => ?_, fun a rest ha h0 hafter => ?_⟩
  · exact startsHeld_or_of_serveHeld htt (otherwise := fun u => .next u.passTick)
      ((move_of_later hlater).trans (advance_of_held hfree hheld))
  · have hundue : ¬ s.Due a := fun hd => hheld ((hd.2 hafter).2 hfree)
    exact startsHeld_or_of_serveHeld htt
      (otherwise := fun u => (u.withInbox rest).deliver a.input)
      (move_of_waiting ha h0 hundue hfree)

end Sys2Proof.Machine
end

section
/-!
The Receiver: who writes it, what one edge keeps, and that it does not meet the transmit agent
(10_state.md section 2, 20_memory.md section 5, 60_exceptions.md section 2, R13 to R15).
-/

namespace Sys2Proof.Machine

open State

variable {s t : State} {tt : TimingTable}

/-! ### The registers after an edge -/

section Registers

variable (c : Config) (k : IntervalClass) (now : Nat) (rx : ReceiverState)

@[simp] theorem edgeOfClass_accumulatedBits :
    (edgeOfClass c k now rx).accumulatedBits = (classBody c k rx).accumulatedBits := by
  simp [edgeOfClass]

@[simp] theorem edgeOfClass_halfBitCount :
    (edgeOfClass c k now rx).halfBitCount = (classBody c k rx).halfBitCount := by
  simp [edgeOfClass]

@[simp] theorem edgeOfClass_lastDecodedBit :
    (edgeOfClass c k now rx).lastDecodedBit = (classBody c k rx).lastDecodedBit := by
  simp [edgeOfClass]

@[simp] theorem edgeOfClass_frameReady :
    (edgeOfClass c k now rx).frameReady =
      ((classBody c k rx).frameReady || decide (17 ≤ (classBody c k rx).halfBitCount)) := by
  simp [edgeOfClass]

theorem edgeOfClass_frameReady_iff :
    (edgeOfClass c k now rx).frameReady = true ↔
      (classBody c k rx).frameReady = true ∨ 17 ≤ (classBody c k rx).halfBitCount := by
  simp

end Registers

/-! ### Elapsed time and the class rows -/

/-- Settles O29: the model's difference is the integer one, and it is a remainder. -/
theorem elapsedIsModularDifference : Obligations.ElapsedIsModularDifference := fun c rx now =>
  ⟨elapsed_eq_modularGap c rx now, Nat.mod_lt _ (Nat.two_pow_pos _)⟩

theorem mem_rows_iff {i : Instr} :
    i ∈ [Instr.onEdgeReset, .onEdgeLong, .onEdgeShort] ↔ ∃ k : IntervalClass, i = k.row := by
  constructor
  · intro hi
    simp only [List.mem_cons, List.not_mem_nil, or_false] at hi
    obtain rfl | rfl | rfl := hi
    · exact ⟨.reset, rfl⟩
    · exact ⟨.long, rfl⟩
    · exact ⟨.short, rfl⟩
  · rintro ⟨k, rfl⟩
    cases k <;> decide

/-- A row that the interval does not select is refused (log entry 9). -/
theorem exec_row_of_ne {k : IntervalClass} (htt : s.tt = some tt) (hk : s.edgeClass tt ≠ k) :
    exec k.row s = .refused .classNotSelected := by
  rw [exec_row, takeEdgeIf, needTable_of_some htt, if_neg hk]

/-- Settles O34: the selected row is that of the interval's class. -/
theorem elapsedSelectsOneRow : Obligations.ElapsedSelectsOneRow := by
  intro s tt htt
  have hrow : exec (s.edgeClass tt).row s = .next (s.takeEdge (s.edgeClass tt)) :=
    exec_of_edgeClass htt rfl (.inr rfl)
  refine ⟨(s.edgeClass tt).row, mem_rows_iff.2 ⟨_, rfl⟩, (exec_onEdge htt).trans hrow.symm,
    ⟨_, hrow⟩, fun j hj hne => ?_⟩
  obtain ⟨k, rfl⟩ := mem_rows_iff.1 hj
  exact exec_row_of_ne htt fun hk => hne (congrArg IntervalClass.row hk.symm)

/-! ### Who writes the ReceiverState -/

/-- R88: the flag was set and a read has cleared it and nothing else. -/
def ClearsFlag (s t : State) : Prop :=
  s.cfg.clearOnRead = true ∧ s.rx.frameReady = true ∧ t.rx = { s.rx with frameReady := false }

theorem readClears_cases (c : Config) (rx : ReceiverState) :
    readClears c rx = rx ∨ (c.clearOnRead = true ∧ rx.frameReady = true ∧
      readClears c rx = { rx with frameReady := false }) := by
  unfold readClears
  split
  · next h => exact .inr ⟨(Bool.and_eq_true_iff.1 h).1, (Bool.and_eq_true_iff.1 h).2, rfl⟩
  · exact .inl rfl

theorem exec_writes_rx {i : Instr} (h : exec i s = .next t) (hi : i.isEdgeEvent = false) :
    t.rx = s.rx ∨ (i = .readStatus ∧ ClearsFlag s t) := by
  obtain ⟨_, _, _, rfl⟩ | ⟨rfl, rfl⟩ | ⟨tt, _, hedge, _⟩ | ⟨tt, d, _, rfl, _⟩ | ⟨_, r, h⟩ :=
    exec_cases h
  · exact .inl rfl
  · exact (readClears_cases s.cfg s.rx).imp id fun hclear => ⟨rfl, hclear⟩
  · obtain rfl | ⟨rfl, _⟩ | ⟨rfl, _⟩ | ⟨rfl, _⟩ := hedge <;> cases hi
  · cases hi
  · exact .inl (submit_frame h).rx

/-- R134: without a table no edge is taken, so an edge that is not dropped finds detection on. -/
theorem edgeDetect_of_exec {i : Instr} (h : exec i s = .next t) (hi : i.isEdgeEvent = true)
    (hdue : i.isEdgeEvent = false ∨ s.tt = none ∨ s.io.edgeDetect = true) :
    s.io.edgeDetect = true := by
  obtain hno | hnone | hon := hdue
  · cases hi.symm.trans hno
  · obtain ⟨rfl, _⟩ | ⟨rfl, _⟩ | ⟨tt, htt, _⟩ | ⟨tt, d, htt, _⟩ | ⟨hno, _⟩ := exec_cases h
    · cases hi
    · cases hi
    · cases hnone.symm.trans htt
    · cases hnone.symm.trans htt
    · cases hi.symm.trans hno
  · exact hon

theorem deliverInstr_writes_rx {i : Instr} (h : s.deliverInstr i = .next t) :
    t.rx = s.rx ∨ (i.isEdgeEvent = true ∧ s.io.edgeDetect = true) ∨
      (i = .readStatus ∧ ClearsFlag s t) := by
  obtain ⟨_, _, rfl⟩ | ⟨hdue, h⟩ := deliverInstr_cases h
  · exact .inl rfl
  · cases hi : i.isEdgeEvent with
    | true => exact .inr (.inl ⟨rfl, edgeDetect_of_exec h hi hdue⟩)
    | false => exact (exec_writes_rx h hi).imp id .inr

/-- The arrivals that write the ReceiverState: edges with detection on, and the clearing read. -/
def ArrivalWritesRx (s t : State) (a : Input) : Prop :=
  (∃ e i, a = inputOf e ∧ decode e = .ok i ∧ i.isEdgeEvent = true ∧ s.io.edgeDetect = true) ∨
  (∃ l, a = .lineIn l ∧ l ≠ s.io.inLevel ∧ s.io.edgeDetect = true) ∨
  (∃ w, a = .command w ∧ decode (.command w) = .ok .readStatus ∧ ClearsFlag s t)

theorem deliver_writes_rx {a : Input} (h : s.deliver a = .next t) :
    t.rx = s.rx ∨ ArrivalWritesRx s t a := by
  cases a with
  | command w =>
    obtain ⟨i, hdec, h⟩ := deliverEncoding_cases (s := s) (e := .command w) h
    obtain hrx | ⟨hi, hon⟩ | ⟨rfl, hclear⟩ := deliverInstr_writes_rx h
    · exact .inl hrx
    · exact .inr (.inl ⟨.command w, i, rfl, hdec, hi, hon⟩)
    · exact .inr (.inr (.inr ⟨w, rfl, hdec, hclear⟩))
  | line bits =>
    obtain ⟨i, hdec, h⟩ := deliverEncoding_cases (s := s) (e := .line bits) h
    obtain hrx | ⟨hi, hon⟩ | ⟨rfl, _⟩ := deliverInstr_writes_rx h
    · exact .inl hrx
    · exact .inr (.inl ⟨.line bits, i, rfl, hdec, hi, hon⟩)
    · cases (encode_of_decodeLine hdec).2
  | lineIn l =>
    simp only [deliver, deliverLevel] at h
    split at h
    · cases h; exact .inl rfl
    · next hne =>
      split at h
      · next hon => exact .inr (.inr (.inl ⟨l, rfl, fun hl => hne hl.symm, hon⟩))
      · cases h; exact .inl rfl
  | configurePort hz => cases h; exact .inl rfl
  | edgePort now => cases h; exact .inl rfl
  | hostEnable => cases h; exact .inl rfl
  | hostDisable =>
    cases h
    left
    unfold hostDisable
    split <;> rfl
  | capabilityCodes d e => cases h; exact .inl rfl

theorem step_writes_rx (h : step s = .next t) : t.rx = s.rx ∨
    ∃ a rest, s.inbox = a :: rest ∧ a.delay = 0 ∧ ArrivalWritesRx s t a.input := by
  obtain ⟨a, as, ha, h0, h | ⟨_, h⟩⟩ | ⟨_, k, r, tt, _, _, h⟩ | h := move_cases h
  · exact (deliver_writes_rx (s := s.withInbox as) h).imp id fun hw => ⟨a, as, ha, h0, hw⟩
  · exact (deliver_writes_rx (s := s.drawn.withInbox as) h).imp id fun hw => ⟨a, as, ha, h0, hw⟩
  · exact .inl (begin_frame h).rx
  · exact .inl (advance_frame h).rx

/-- Settles O38: at the level of the operation, of the transmit agent, and of the step. -/
theorem onlyEdgesWriteTheReceiver : Obligations.OnlyEdgesWriteTheReceiver :=
  ⟨fun _ _ _ h hi => exec_writes_rx h hi, fun _ _ h => (advance_frame h).rx,
    fun _ _ h => step_writes_rx h⟩

/-- Settles O39: of the arrivals that write the ReceiverState only the read does so without
detection. -/
theorem maskedReceiverIsFrozen : Obligations.MaskedReceiverIsFrozen := by
  intro s t h hoff
  have hmask (hon : s.io.edgeDetect = true) : False := by simp [hoff] at hon
  obtain hrx | ⟨a, rest, _, _, ⟨e, i, _, _, _, hon⟩ | ⟨l, _, _, hon⟩ | ⟨w, _, _, hc, _, hrx⟩⟩ :=
    step_writes_rx h
  · exact .inl hrx
  · exact (hmask hon).elim
  · exact (hmask hon).elim
  · exact .inr ⟨hc, hrx⟩

/-! ### The ready flag -/

/-- R84: only the body of class RESET clears the flag. -/
theorem class_of_flag_cleared {c : Config} {k : IntervalClass} {now : Nat} {rx : ReceiverState}
    (hset : rx.frameReady = true) (hclear : (edgeOfClass c k now rx).frameReady = false) :
    k = .reset := by
  cases k with
  | reset => rfl
  | long => simp [classBody, longBody, hset] at hclear
  | short => simp [classBody, shortBody, hset] at hclear

/-- Settles O40: of the operations only the read and the edges write the flag, and of the edges only
those of class RESET clear it. -/
theorem readyFlagIsClearedOnlyByResetOrRead : Obligations.ReadyFlagIsClearedOnlyByResetOrRead := by
  refine ⟨fun s t i h hframe hset hclear => ?_, fun s t h => by rw [(advance_frame h).rx]⟩
  obtain ⟨_, _, _, rfl⟩ | ⟨rfl, rfl⟩ | ⟨tt, htt, hedge, rfl⟩ | ⟨tt, d, _, rfl, _⟩ | ⟨_, r, h⟩ :=
    exec_cases h
  · cases hset.symm.trans hclear
  · refine .inl ⟨rfl, ?_⟩
    simpa [readClears_eq, hset] using hclear
  · have hk : s.edgeClass tt = .reset := class_of_flag_cleared hset hclear
    have hi : i = .onEdge ∨ i = .onEdgeReset := by simpa [hk] using hedge
    rw [hk]
    exact .inr ⟨hi, rfl, rfl, tt, htt, (classify_spec tt _).1.1 hk⟩
  · exact (hframe d rfl).elim
  · rw [(submit_frame h).rx, hset] at hclear
    cases hclear

/-! ### An edge and the transmit agent -/

theorem act_withRx {a : Action} (rx : ReceiverState) (h : s.act a = .next t) :
    (s.withRx rx).act a = .next (t.withRx rx) := by
  cases a with
  | disable =>
    simp only [act, disableDetection] at h ⊢
    split at h
    · next hok => cases h; exact if_pos hok
    · cases h
  | drive l => cases h; rfl
  | enable => cases h; rfl

theorem finish_withRx (rx : ReceiverState) : (s.withRx rx).finish = s.finish.withRx rx := by
  rw [finish_eq, finish_eq]
  rfl

theorem enterElement_withRx {k : Nat} (rx : ReceiverState)
    (h : s.enterElement tt k = .next t) :
    (s.withRx rx).enterElement tt k = .next (t.withRx rx) := by
  obtain ⟨e, he, h⟩ | ⟨hnone, rfl⟩ := enterElement_cases h
  · have he' : (scheduleOf tt (s.withRx rx).request)[k]? = some e := he
    rw [enterElement, he']
    exact act_withRx rx h
  · rw [enterElement_none (s := s.withRx rx) hnone, finish_withRx]

theorem serveHeld_withRx (rx : ReceiverState)
    (h : (s.serveHeld fun u => .next u.passTick) = .next t) :
    ((s.withRx rx).serveHeld fun u => .next u.passTick) = .next (t.withRx rx) := by
  unfold serveHeld at h ⊢
  simp only [withRx_choices, withRx_held] at h ⊢
  split at h
  · obtain ⟨tt, htt, h⟩ := needTable_next h
    exact (needTable_of_some (s := (s.withRx rx).drawn) htt).trans (enterElement_withRx rx h)
  · cases h; rfl

/-- R38: no move of the transmit agent or of time reads the ReceiverState or writes it. -/
theorem advance_withRx (rx : ReceiverState) (h : s.advance = .next t) :
    (s.withRx rx).advance = .next (t.withRx rx) := by
  cases hb : s.tx.busy with
  | true =>
    by_cases h0 : s.tx.timer = 0
    · obtain ⟨tt, htt, h⟩ := advance_next_of_waited hb h0 h
      rw [advance_of_waited (s := s.withRx rx) htt hb h0]
      exact enterElement_withRx rx h
    · have hwait := Nat.pos_of_ne_zero h0
      rw [advance_of_idle (fun _ => hwait) (by simp [hb])] at h
      cases h
      exact advance_of_idle (s := s.withRx rx) (fun _ => hwait) (by simp [hb])
  | false =>
    by_cases hheld : s.held = []
    · rw [advance_of_idle (by simp [hb]) fun _ => hheld] at h
      cases h
      exact advance_of_idle (s := s.withRx rx) (by simp [hb]) fun _ => hheld
    · rw [advance_of_held hb hheld] at h
      rw [advance_of_held (s := s.withRx rx) hb hheld]
      exact serveHeld_withRx rx h

/-- Settles O44: the edge reads the parameters, the table, the port and the ReceiverState, which the
move keeps, and the move does not read the ReceiverState. -/
theorem edgesCommuteWithTheTransmitAgent : Obligations.EdgesCommuteWithTheTransmitAgent := by
  intro s s₁ tt htt h
  have hf := advance_frame h
  refine ⟨_, _, exec_onEdge htt, advance_withRx _ h, ?_⟩
  rw [exec_onEdge (hf.tt.trans htt), takeEdge, edgeClass, hf.cfg, hf.rx, hf.ports]
  rfl

/-! ### The invariants of the ReceiverState -/

theorem countUp_of_lt {c : Config} {n count : Nat} (h : count + n < 2 ^ c.cntW) :
    countUp c n count = count + n := Nat.mod_eq_of_lt h

/-- A committed bit is the register's bit 0. -/
theorem commitBit_mod_two {c : Config} (hacc : 1 ≤ c.accW) (b : Level) (acc : Nat) :
    commitBit c b acc % 2 = b.toNat := by
  have hdvd : 2 ∣ 2 ^ c.accW := dvd_pow_self 2 (by omega)
  have hb : b.toNat < 2 := Bool.toNat_lt b
  rw [commitBit, Nat.mod_mod_of_dvd _ hdvd]
  omega

theorem commitBit_lt_of_lt {c : Config} {acc n : Nat} (b : Level) (h : acc < 2 ^ n) :
    commitBit c b acc < 2 ^ (n + 1) := by
  have hb : b.toNat < 2 := Bool.toNat_lt b
  refine (Nat.mod_le _ _).trans_lt ?_
  rw [pow_succ]
  omega

theorem consistent_edgeOfClass {c : Config} {rx : ReceiverState} (k : IntervalClass) (now : Nat)
    (hacc : 1 ≤ c.accW) (hrx : rx.Consistent) (hcount : rx.halfBitCount + 2 < 2 ^ c.cntW) :
    (edgeOfClass c k now rx).Consistent := by
  obtain ⟨hflag, hbound, hbit, _⟩ := hrx
  have h1 : countUp c 1 rx.halfBitCount = rx.halfBitCount + 1 := countUp_of_lt (by omega)
  have h2 : countUp c 2 rx.halfBitCount = rx.halfBitCount + 2 := countUp_of_lt hcount
  unfold ReceiverState.Consistent
  simp only [edgeOfClass_frameReady_iff, edgeOfClass_halfBitCount, edgeOfClass_accumulatedBits,
    edgeOfClass_lastDecodedBit, classBody]
  cases k with
  | reset => simp [resetBody]
  | long =>
    simp only [longBody, h2, hflag]
    refine ⟨by omega, ?_, fun _ => commitBit_mod_two hacc _ _, by omega⟩
    rw [show (rx.halfBitCount + 2 + 1) / 2 = (rx.halfBitCount + 1) / 2 + 1 by omega]
    exact commitBit_lt_of_lt _ hbound
  | short =>
    simp only [shortBody, h1, hflag]
    split
    · next hodd =>
      refine ⟨by omega, ?_, fun _ => commitBit_mod_two hacc _ _, by omega⟩
      rw [show (rx.halfBitCount + 1 + 1) / 2 = (rx.halfBitCount + 1) / 2 + 1 by omega]
      exact commitBit_lt_of_lt _ hbound
    · next heven =>
      refine ⟨by omega, ?_, fun _ => hbit (by omega), by omega⟩
      rwa [show (rx.halfBitCount + 1 + 1) / 2 = (rx.halfBitCount + 1) / 2 by omega]

/-- Settles O41: whatever its class, the edge keeps the invariants. -/
theorem edgesKeepReceiverConsistent : Obligations.EdgesKeepReceiverConsistent := by
  intro s tt hadm htt hrx hcount
  exact ⟨_, exec_onEdge htt,
    consistent_edgeOfClass _ _ (le_trans (by decide) hadm.2.1) hrx hcount⟩

/-! ### The bits committed -/

/-- R15 (c), R52: as many bits as half-bits, halved and rounded up, and the register is these
bits. -/
def CommitsMatch (c : Config) (p : ReceiverState × List Level) : Prop :=
  p.2.length = (p.1.halfBitCount + 1) / 2 ∧ p.1.accumulatedBits = ofMsbBits p.2 % 2 ^ c.accW

theorem commitsMatch_nil {c : Config} {rx : ReceiverState} (hcount : rx.halfBitCount = 0)
    (hacc : rx.accumulatedBits = 0) : CommitsMatch c (rx, []) :=
  ⟨by simp [hcount], by simp [hacc, ofMsbBits]⟩

/-- R52: truncating the register before a commit or after it is the same. -/
theorem commitBit_mod (c : Config) (b : Level) (acc : Nat) :
    commitBit c b (acc % 2 ^ c.accW) = (2 * acc + b.toNat) % 2 ^ c.accW :=
  ((Nat.mod_modEq _ _).mul_left 2).add_right _

theorem commitBit_ofMsbBits (c : Config) (b : Level) (bs : List Level) :
    commitBit c b (ofMsbBits bs % 2 ^ c.accW) = ofMsbBits (bs ++ [b]) % 2 ^ c.accW := by
  have hb : ofMsbBits [b] = b.toNat := by cases b <;> rfl
  rw [commitBit_mod, ofMsbBits_append, hb, List.length_singleton, pow_one, Nat.mul_comm]

theorem committedEdge_fst (c : Config) (tt : TimingTable) (p : ReceiverState × List Level)
    (now : Nat) : (committedEdge c tt p now).1 = edgeStep c tt p.1 now := by
  unfold committedEdge
  split <;> rfl

theorem committedEdge_commitsMatch {c : Config} {tt : TimingTable} {p : ReceiverState × List Level}
    (now : Nat) (hp : CommitsMatch c p) (hcount : p.1.halfBitCount + 2 < 2 ^ c.cntW) :
    CommitsMatch c (committedEdge c tt p now) := by
  obtain ⟨hlen, hacc⟩ := hp
  have h1 : countUp c 1 p.1.halfBitCount = p.1.halfBitCount + 1 := countUp_of_lt (by omega)
  have h2 : countUp c 2 p.1.halfBitCount = p.1.halfBitCount + 2 := countUp_of_lt hcount
  unfold committedEdge edgeStep
  split
  · next hk =>
    rw [hk]
    exact commitsMatch_nil rfl rfl
  · next hk =>
    rw [hk]
    simp only [CommitsMatch, edgeOfClass_halfBitCount, edgeOfClass_accumulatedBits,
      edgeOfClass_lastDecodedBit, classBody, longBody, h2, hacc, commitBit_ofMsbBits,
      List.length_append, List.length_singleton, and_true]
    omega
  · next hk =>
    rw [hk]
    simp only [CommitsMatch, edgeOfClass_halfBitCount, edgeOfClass_accumulatedBits,
      edgeOfClass_lastDecodedBit, classBody, shortBody, h1, hacc, commitBit_ofMsbBits]
    split
    · simp only [List.length_append, List.length_singleton, and_true]
      omega
    · exact ⟨by omega, rfl⟩

theorem foldl_committedEdge {c : Config} {tt : TimingTable} (nows : List Nat)
    {p : ReceiverState × List Level} (hp : CommitsMatch c p)
    (hcount : ∀ k, k < nows.length →
      (receive c tt p.1 (nows.take k)).halfBitCount + 2 < 2 ^ c.cntW) :
    CommitsMatch c (nows.foldl (committedEdge c tt) p) := by
  induction nows generalizing p with
  | nil => exact hp
  | cons now nows ih =>
    refine ih (committedEdge_commitsMatch now hp (hcount 0 (Nat.succ_pos _))) fun k hk => ?_
    rw [committedEdge_fst]
    exact hcount (k + 1) (Nat.succ_lt_succ hk)

theorem foldl_committedEdge_fst (c : Config) (tt : TimingTable) (nows : List Nat)
    (p : ReceiverState × List Level) :
    (nows.foldl (committedEdge c tt) p).1 = receive c tt p.1 nows :=
  (List.foldl_hom Prod.fst fun p now => (committedEdge_fst c tt p now).symm).symm

/-- Settles O42: the match holds at the start and every edge keeps it. -/
theorem commitsKeepStepWithHalfBits : Obligations.CommitsKeepStepWithHalfBits := by
  intro c tt rx nows _ hcount hacc hrange
  have hend := foldl_committedEdge nows (commitsMatch_nil (c := c) hcount hacc) hrange
  rwa [CommitsMatch, foldl_committedEdge_fst] at hend

/-! ### The width of the register -/

/-- R13: the low sixteen bits after a commit come from the low sixteen bits before. -/
theorem commitBit_low {c : Config} (hw : 16 ≤ c.accW) (b : Level) (acc : Nat) :
    commitBit c b acc % 65536 = (2 * (acc % 65536) + b.toNat) % 65536 := by
  have hdvd : 65536 ∣ 2 ^ c.accW := pow_dvd_pow 2 hw
  rw [commitBit, Nat.mod_mod_of_dvd _ hdvd]
  omega

/-- The low sixteen bits after a class body depend on the low sixteen bits before. -/
theorem classBody_low {c d : Config} {rx ry : ReceiverState} (k : IntervalClass)
    (hc : 16 ≤ c.accW) (hd : 16 ≤ d.accW) (hcnt : d.cntW = c.cntW)
    (hlow : ry.accumulatedBits % 65536 = rx.accumulatedBits % 65536)
    (hcount : ry.halfBitCount = rx.halfBitCount) (hbit : ry.lastDecodedBit = rx.lastDecodedBit) :
    (classBody d k ry).accumulatedBits % 65536 = (classBody c k rx).accumulatedBits % 65536 := by
  have hup : countUp d 1 ry.halfBitCount = countUp c 1 rx.halfBitCount := by
    rw [countUp, hcnt, hcount, countUp]
  cases k with
  | reset => rfl
  | long => simp only [classBody, longBody, commitBit_low hc, commitBit_low hd, hlow, hbit]
  | short =>
    simp only [classBody, shortBody, hup, hbit]
    split
    · rw [commitBit_low hc, commitBit_low hd, hlow]
    · exact hlow

/-- R13: no other register is computed from the wide one or with its width. -/
theorem edgeOfClass_ignores_register (c : Config) (k : IntervalClass) (now : Nat)
    (rx : ReceiverState) (w acc : Nat) :
    { edgeOfClass { c with accW := w } k now { rx with accumulatedBits := acc } with
      accumulatedBits := 0 } = { edgeOfClass c k now rx with accumulatedBits := 0 } := by
  cases k with
  | reset => rfl
  | long => rw [edgeOfClass_long, edgeOfClass_long]
  | short => rw [edgeOfClass_short, edgeOfClass_short]

/-- Settles O43: the two edges are of one class, whose body reads only the low bits for the low
bits and the register for no other field. -/
theorem lowAccumulatorBitsIgnoreWidth : Obligations.LowAccumulatorBitsIgnoreWidth := by
  intro s tt w acc htt hs hw hlow
  refine ⟨_, _, exec_onEdge htt, exec_onEdge (tt := tt) htt, ?_,
    edgeOfClass_ignores_register s.cfg (s.edgeClass tt) s.ports.now s.rx w acc⟩
  simp only [takeEdge_rx, edgeOfClass_accumulatedBits]
  exact classBody_low (s.edgeClass tt) hs hw rfl hlow rfl rfl

end Sys2Proof.Machine
end

section
/-!
The ranges of the registers: they hold at power-on and every step keeps them (10_state.md sections 2
to 5, R13, R17, R20), and the frequencies for which the default targets give sound tables
(40_timing_config.md).
-/

namespace Sys2Proof.Machine

open State

variable {s t : State} {tt : TimingTable} {r : TxRequest}

/-! ### Schedules -/

theorem length_scheduleOf_le (tt : TimingTable) (r : TxRequest) :
    (scheduleOf tt r).length ≤ 37 := by
  cases hop : r.op <;> simp [scheduleOf, segmentsOf, driveAll, segIdle, hop]

theorem duration_of_mem_segBits {g : Segment} {bs : List Level} (h : g ∈ segBits tt bs) :
    g.duration = tt.halfBit := by
  obtain ⟨b, _, hg⟩ := List.mem_flatMap.1 h
  simp only [segBit, List.mem_cons, List.not_mem_nil, or_false] at hg
  obtain rfl | rfl := hg <;> rfl

theorem duration_of_mem_segIdle {g : Segment} (h : g ∈ segIdle tt) :
    g.duration = tt.idleThreshold := by
  obtain rfl := List.mem_singleton.1 h
  rfl

/-- A segment lasts a half-bit, or the idle gap. -/
theorem duration_of_mem_segmentsOf {g : Segment} (h : g ∈ segmentsOf tt r) :
    g.duration = tt.halfBit ∨ g.duration = tt.idleThreshold := by
  unfold segmentsOf at h
  split at h
  · exact .inl (duration_of_mem_segBits h)
  · exact .inl (duration_of_mem_segBits h)
  · exact .inr (duration_of_mem_segIdle h)
  all_goals exact (List.mem_append.1 h).imp duration_of_mem_segBits duration_of_mem_segIdle

theorem wait_le_of_mem_driveAll {e : Element} (h : e ∈ driveAll (segmentsOf tt r)) :
    e.wait ≤ tt.longestWait := by
  obtain ⟨g, hg, rfl⟩ := List.mem_map.1 h
  obtain hd | hd := duration_of_mem_segmentsOf hg
  · exact hd.trans_le (le_max_left _ _)
  · exact hd.trans_le (le_max_right _ _)

theorem wait_le_of_mem_scheduleOf {e : Element} (h : e ∈ scheduleOf tt r) :
    e.wait ≤ tt.longestWait := by
  by_cases hop : r.op = .transfer
  · rw [scheduleOf_of_transfer hop, List.mem_cons, List.mem_append, List.mem_singleton] at h
    obtain rfl | h | rfl := h
    · exact Nat.zero_le _
    · exact wait_le_of_mem_driveAll h
    · exact Nat.zero_le _
  · rw [scheduleOf_of_ne_transfer hop] at h
    exact wait_le_of_mem_driveAll h

/-! ### The registers of the Receiver -/

/-- The three wide registers are within their widths (R13). -/
def ReceiverState.InWidths (c : Config) (rx : ReceiverState) : Prop :=
  rx.lastEdgeTimestamp < 2 ^ c.tickW ∧ rx.accumulatedBits < 2 ^ c.accW ∧
    rx.halfBitCount < 2 ^ c.cntW

theorem State.InRange.inWidths (h : s.InRange) : s.rx.InWidths s.cfg :=
  ⟨h.timestamp, h.accumulator, h.count⟩

theorem inWidths_edgeOfClass {c : Config} {rx : ReceiverState} (k : IntervalClass) (now : Nat)
    (h : rx.InWidths c) : (edgeOfClass c k now rx).InWidths c :=
  edgeOfClass_ranges c rx now k h.2.1

theorem inWidths_foldl_edgeStep {c : Config} {rx : ReceiverState} (nows : List Nat)
    (h : rx.InWidths c) : (nows.foldl (edgeStep c tt) rx).InWidths c := by
  induction nows generalizing rx with
  | nil => exact h
  | cons now nows ih => exact ih (inWidths_edgeOfClass _ now h)

theorem inWidths_readClears {c : Config} {rx : ReceiverState} (h : rx.InWidths c) :
    (readClears c rx).InWidths c := by
  rw [readClears_eq]
  exact h

/-! ### The updates of the state -/

namespace State.InRange

theorem withInbox (h : s.InRange) (as : List Arrival) : (s.withInbox as).InRange := { h with }

theorem drawn (h : s.InRange) : s.drawn.InRange := { h with }

theorem emit (h : s.InRange) (o : Output) : (s.emit o).InRange := { h with }

theorem withHeld (h : s.InRange) (htt : s.tt ≠ none) (rs : List TxRequest) :
    (s.withHeld rs).InRange :=
  { h with configured := fun hnone => (htt hnone).elim }

theorem withRx (h : s.InRange) {rx : ReceiverState} (hrx : rx.InWidths s.cfg) :
    (s.withRx rx).InRange := by
  obtain ⟨hlast, hacc, hcount⟩ := hrx
  exact { h with timestamp := hlast, accumulator := hacc, count := hcount }

theorem withPorts (h : s.InRange) {p : Ports} (hp : p.now < 2 ^ s.cfg.tickW) :
    (s.withPorts p).InRange := { h with now := hp }

theorem withIo (h : s.InRange) {io : IoState} (hd : CodeFits s.cfg io.disableResult)
    (he : CodeFits s.cfg io.enableResult) : (s.withIo io).InRange :=
  { h with disableCode := hd, enableCode := he }

/-- The table is filled while the sequencer is at rest (R134). -/
theorem withTable (h : s.InRange) (hnone : s.tt = none) (tt : TimingTable) :
    (s.withTable tt).InRange := by
  have h0 : s.tx.timer = 0 := (h.atRest (h.configured hnone).1).2
  exact { h with timerRange := fun _ _ => h0.trans_le (Nat.zero_le _), configured := nofun }

theorem passTick (h : s.InRange) : s.passTick.InRange where
  __ := h
  tick := Nat.mod_lt _ (Nat.two_pow_pos _)
  timerRange tt htt := (Nat.sub_le _ _).trans (h.timerRange tt htt)
  atRest hb := ⟨(h.atRest hb).1, Nat.sub_eq_zero_of_le ((h.atRest hb).2.trans_le (Nat.zero_le _))⟩

theorem taking (h : s.InRange) (htt : s.tt ≠ none) (r : TxRequest) : (s.taking r).InRange :=
  { h with atRest := nofun, configured := fun hnone => (htt hnone).elim }

/-- A busy sequencer stands at an element of its schedule and waits no longer than that says. -/
theorem entered (h : s.InRange) (htt : s.tt = some tt) (hb : s.tx.busy = true) {k : Nat}
    {e : Element} (he : (scheduleOf tt r)[k]? = some e) :
    (s.withTx { s.tx with step := k, timer := e.wait }).InRange where
  __ := h
  stepRange := by
    have hk := (List.getElem?_eq_some_iff.1 he).1
    exact Nat.le_of_lt_succ (hk.trans_le (length_scheduleOf_le tt r))
  timerRange tt' htt' := by
    obtain rfl : tt = tt' := Option.some.inj (htt.symm.trans htt')
    exact wait_le_of_mem_scheduleOf (List.mem_of_getElem? he)
  atRest hfree := by cases hb.symm.trans hfree
  configured hnone := by cases htt.symm.trans hnone

theorem finish (h : s.InRange) : s.finish.InRange := by
  rw [finish_eq]
  exact { h with
    stepRange := Nat.zero_le _
    timerRange := fun _ _ => Nat.zero_le _
    atRest := fun _ => ⟨rfl, rfl⟩
    configured := fun hnone => ⟨rfl, (h.configured hnone).2⟩ }

/-! ### The transmit agent -/

theorem act (h : s.InRange) {a : Action} (ha : s.act a = .next t) : t.InRange := by
  cases a with
  | disable =>
    simp only [State.act, disableDetection] at ha
    split at ha
    · cases ha; exact { h with }
    · cases ha
  | drive l => cases ha; exact { h with }
  | enable => cases ha; exact { h with result := h.enableCode }

theorem enterElement (h : s.InRange) (htt : s.tt = some tt) (hb : s.tx.busy = true) {k : Nat}
    (ht : s.enterElement tt k = .next t) : t.InRange := by
  obtain ⟨e, he, ht⟩ | ⟨_, rfl⟩ := enterElement_cases ht
  · exact (h.entered htt hb he).act ht
  · exact h.finish

theorem begin (h : s.InRange) (htt : s.tt = some tt) (ht : s.begin tt r = .next t) :
    t.InRange :=
  (h.taking (by simp [htt]) r).enterElement htt rfl ht

theorem submit (h : s.InRange) (ht : s.submit r = .next t) : t.InRange := by
  obtain ⟨tt, htt, ⟨_, _, ht⟩ | ⟨_, rfl⟩⟩ := submit_cases ht
  · exact h.begin htt ht
  · exact h.withHeld (by simp [htt]) _

theorem begin_held (h : s.InRange) (htt : s.tt = some tt) {k : Nat}
    (ht : (s.drawn.withHeld (s.held.eraseIdx k)).begin tt r = .next t) : t.InRange :=
  (h.drawn.withHeld (by simp [htt]) _).begin htt ht

theorem advance (h : s.InRange) (ht : s.advance = .next t) : t.InRange := by
  obtain ⟨_, _, rfl⟩ | ⟨hb, _, tt, htt, ht⟩ | ⟨_, _, rfl⟩ | ⟨_, _, rfl⟩ |
    ⟨_, k, r, tt, _, htt, ht⟩ := advance_cases ht
  · exact h.passTick
  · exact h.enterElement htt hb ht
  · exact h.passTick
  · exact h.drawn.passTick
  · exact h.begin_held htt ht

/-! ### The arrivals -/

theorem exec (h : s.InRange) {i : Instr} (ht : exec i s = .next t) : t.InRange := by
  obtain ⟨_, hnone, _, rfl⟩ | ⟨_, rfl⟩ | ⟨tt, _, _, rfl⟩ | ⟨tt, d, _, _, rfl⟩ | ⟨_, r, ht⟩ :=
    exec_cases ht
  · exact h.withTable hnone _
  · exact (h.withRx (inWidths_readClears h.inWidths)).emit _
  · exact h.withRx (inWidths_edgeOfClass _ _ h.inWidths)
  · exact h.withRx (inWidths_foldl_edgeStep _ h.inWidths)
  · exact h.submit ht

theorem deliver (h : s.InRange) {a : Input} (ht : s.deliver a = .next t) : t.InRange := by
  obtain ⟨i, ht⟩ | ⟨p, rfl, hp⟩ | ⟨l, _, ht⟩ | ⟨io, rfl, _, hcodes⟩ := deliver_cases ht
  · obtain ⟨_, _, rfl⟩ | ⟨_, ht⟩ := deliverInstr_cases ht
    · exact h
    · exact h.exec ht
  · exact h.withPorts (hp.elim (fun heq => heq.trans_lt h.now) id)
  · have hio := h.withIo (io := { s.io with inLevel := l }) h.disableCode h.enableCode
    exact (hio.withPorts (p := { s.ports with now := s.tick }) h.tick).exec ht
  · obtain ⟨hd, he⟩ | ⟨d, e, hd, he⟩ := hcodes
    · exact h.withIo (hd ▸ h.disableCode) (he ▸ h.enableCode)
    · exact h.withIo (hd ▸ codeFits_resultCode s.cfg d) (he ▸ codeFits_resultCode s.cfg e)

theorem step (h : s.InRange) (ht : step s = .next t) : t.InRange := by
  obtain ⟨a, as, _, _, ht | ⟨_, ht⟩⟩ | ⟨_, k, r, tt, _, htt, ht⟩ | ht := move_cases ht
  · exact (h.withInbox as).deliver ht
  · exact (h.drawn.withInbox as).deliver ht
  · exact h.begin_held htt ht
  · exact h.advance ht

end State.InRange

/-- Settles O55: a step delivers an input, starts a held request, or advances the machine. -/
theorem everyStepKeepsRanges : Obligations.EveryStepKeepsRanges := fun _ _ h ht => h.step ht

theorem codeFits_zero (c : Config) : CodeFits c 0 := by
  have hpos : (0 : Int) < 2 ^ (c.resultW - 1) := by positivity
  exact ⟨by omega, hpos⟩

/-- Settles O54: each register is 0 or reduced to its width. -/
theorem rangesHoldAtPowerOn : Obligations.RangesHoldAtPowerOn := fun c hc =>
  { params := hc
    timestamp := Nat.mod_lt _ (Nat.two_pow_pos _)
    accumulator := Nat.two_pow_pos _
    count := Nat.two_pow_pos _
    tick := Nat.mod_lt _ (Nat.two_pow_pos _)
    now := Nat.two_pow_pos _
    stepRange := Nat.zero_le _
    timerRange := nofun
    atRest := fun _ => ⟨rfl, rfl⟩
    configured := fun _ => ⟨rfl, rfl⟩
    result := codeFits_zero c
    disableCode := codeFits_zero c
    enableCode := codeFits_zero c }

/-! ### The default targets -/

/-- Settles O13: the ceilings of the default targets are apart as soon as the targets are one tick
apart, and the first frequencies below fail by evaluation. -/
theorem defaultTargetsGiveSoundTables : Obligations.DefaultTargetsGiveSoundTables := by
  refine ⟨fun hz hhz => ?_, fun hz hhz => ?_, by decide, by decide⟩
  · simp only [TimingTable.WF, configuredTable, Config.standard, ticks]
    omega
  · simp only [TimingTable.RT, configuredTable, Config.standard, ticks]
    omega

end Sys2Proof.Machine
end

section
/-!
Frames, end to end: the edges of a bit string lie one or two half-bits apart, so the Receiver counts
half-bits and commits the bits (42_receiver.md, properties and their premises; R90 to R93, R104).
-/

namespace Sys2Proof.Machine

open State

variable {c : Config} {tt : TimingTable} {rx ry : ReceiverState}

/-! ### The edges of a bit string -/

/-- A bit that repeats the line's level has an edge at its start and one in its middle. -/
theorem edgesOf_same_bit (b : Level) (bs : List Level) (gs : List Segment) (t : Nat) :
    edgesOf (segBits tt (b :: bs) ++ gs) t b =
      (t, !b) :: (t + tt.halfBit, b) ::
        edgesOf (segBits tt bs ++ gs) (t + tt.halfBit + tt.halfBit) b := by
  cases b <;> rfl

/-- A bit that differs from the line's level has an edge in its middle only. -/
theorem edgesOf_other_bit (b : Level) (bs : List Level) (gs : List Segment) (t : Nat) :
    edgesOf (segBits tt ((!b) :: bs) ++ gs) t b =
      (t + tt.halfBit, !b) ::
        edgesOf (segBits tt bs ++ gs) (t + tt.halfBit + tt.halfBit) (!b) := by
  cases b <;> rfl

theorem edgesOf_append (gs hs : List Segment) (t : Nat) (l : Level) :
    edgesOf (gs ++ hs) t l =
      edgesOf gs t l ++ edgesOf hs (t + durationOf gs) (levelAfter gs l) := by
  induction gs generalizing t l with
  | nil => rfl
  | cons g gs ih =>
    rw [List.cons_append, edgesOf, edgesOf, ih, ih, durationOf_cons, levelAfter_cons,
      ← Nat.add_assoc]
    split
    · next hl => rw [hl]
    · rfl

theorem levelAfter_segBits (tt : TimingTable) (bs : List Level) (l : Level) :
    levelAfter (segBits tt bs) l = bs.getLastD l := by
  induction bs generalizing l with
  | nil => rfl
  | cons b bs ih => rw [segBits_cons, levelAfter_cons, levelAfter_cons, ih, List.getLastD_cons]

/-- R104: one edge comes a half-bit or a full bit after the other. -/
def HalfBitSteps (tt : TimingTable) : List Nat → Prop :=
  List.IsChain fun p q => q = p + tt.halfBit ∨ q = p + 2 * tt.halfBit

/-- After the mid-bit edge at `t` of a bit `b`, the edges of the bits and of the idle gap after it
keep the steps. -/
theorem halfBitSteps_after_bit (bs : List Level) (t : Nat) (b : Level) :
    HalfBitSteps tt
      (t :: (edgesOf (segBits tt bs ++ segIdle tt) (t + tt.halfBit) b).map Prod.fst) := by
  induction bs generalizing t b with
  | nil =>
    cases b
    · exact .cons_cons (.inl rfl) (.singleton _)
    · exact .singleton _
  | cons d bs ih =>
    obtain rfl | rfl := Bool.eq_or_eq_not d b
    · rw [edgesOf_same_bit]
      exact .cons_cons (.inl rfl) (.cons_cons (.inl rfl) (ih _ _))
    · rw [edgesOf_other_bit]
      exact .cons_cons (.inr (by omega)) (ih _ _)

/-- From an idle line a first bit 1 has its edges at its start and in its middle. -/
theorem edgeTicks_of_one (bs : List Level) (gs : List Segment) (t : Nat) :
    edgeTicks (segBits tt (true :: bs) ++ gs) t = t :: (t + tt.halfBit) ::
      (edgesOf (segBits tt bs ++ gs) (t + tt.halfBit + tt.halfBit) true).map Prod.fst := by
  rw [edgeTicks, edgesOf_same_bit]
  rfl

theorem edgeTicks_of_one_alone (bs : List Level) (t : Nat) :
    edgeTicks (segBits tt (true :: bs)) t = t :: (t + tt.halfBit) ::
      (edgesOf (segBits tt bs) (t + tt.halfBit + tt.halfBit) true).map Prod.fst := by
  simpa using edgeTicks_of_one bs [] t

/-- From an idle line a first bit 0 has its edge in its middle. -/
theorem edgeTicks_of_zero (bs : List Level) (gs : List Segment) (t : Nat) :
    edgeTicks (segBits tt (false :: bs) ++ gs) t = (t + tt.halfBit) ::
      (edgesOf (segBits tt bs ++ gs) (t + tt.halfBit + tt.halfBit) false).map Prod.fst := by
  rw [edgeTicks, show (false : Level) = !true from rfl, edgesOf_other_bit]
  rfl

/-- The edges of a bit string and its idle gap: the first one, and steps from there on. -/
theorem edgeTicks_eq_cons (b : Level) (bs : List Level) (t : Nat) :
    ∃ ts, edgeTicks (segBits tt (b :: bs) ++ segIdle tt) t =
        (if b then t else t + tt.halfBit) :: ts ∧
      HalfBitSteps tt ((if b then t else t + tt.halfBit) :: ts) := by
  cases b with
  | true =>
    exact ⟨_, edgeTicks_of_one bs _ t, .cons_cons (.inl rfl) (halfBitSteps_after_bit bs _ _)⟩
  | false => exact ⟨_, edgeTicks_of_zero bs _ t, halfBitSteps_after_bit bs _ _⟩

/-- No edge comes after the start of the idle gap. -/
theorem le_of_mem_edgesOf_segIdle (gs : List Segment) (t : Nat) (l : Level) {p : Nat × Level}
    (h : p ∈ edgesOf (gs ++ segIdle tt) t l) : p.1 ≤ t + durationOf gs := by
  induction gs generalizing t l with
  | nil =>
    cases l with
    | true => cases h
    | false =>
      obtain rfl := List.mem_singleton.1 h
      exact le_rfl
  | cons g gs ih =>
    rw [durationOf_cons, ← Nat.add_assoc]
    rw [List.cons_append, edgesOf] at h
    split at h
    · exact ih _ _ h
    · obtain rfl | h := List.mem_cons.1 h
      · exact Nat.le_add_right_of_le (Nat.le_add_right _ _)
      · exact ih _ _ h

/-! ### The class of an edge -/

/-- A receiver stamped at `p` measures the time since `p`, as long as that fits the counter. -/
theorem elapsed_of_stamp {p now : Nat} (hlast : rx.lastEdgeTimestamp = p % 2 ^ c.tickW)
    (hle : p ≤ now) (hlt : now - p < 2 ^ c.tickW) : elapsed c rx now = now - p := by
  have hgap : ((now : Int) - (p % 2 ^ c.tickW : Nat)) % (2 ^ c.tickW : Nat) =
      ((now - p : Nat) : Int) := by
    rw [Int.natCast_mod, Int.sub_emod_emod, ← Nat.cast_sub hle]
    exact_mod_cast Nat.mod_eq_of_lt hlt
  rw [elapsed_eq_modularGap, modularGap, hlast, hgap, Int.toNat_natCast]

theorem edgeStep_of_stamp {p now : Nat} (hlast : rx.lastEdgeTimestamp = p % 2 ^ c.tickW)
    (hle : p ≤ now) (hlt : now - p < 2 ^ c.tickW) :
    edgeStep c tt rx now = edgeOfClass c (classify tt (now - p)) now rx := by
  rw [edgeStep, elapsed_of_stamp hlast hle hlt]

/-- R137: an edge classed RESET has been longer away than the threshold, which the counter holds. -/
theorem resetThreshold_lt_of_firstEdgeResets {now : Nat} (h : FirstEdgeResets c tt rx now) :
    tt.resetThreshold < 2 ^ c.tickW := by
  refine h.trans ?_
  rw [← elapsed_eq_modularGap]
  exact Nat.mod_lt _ (Nat.two_pow_pos _)

/-- The Receiver in the middle of a frame: its last edge at `t`, the bits committed as the number
`x`, `n` half-bits counted, and the last bit `b`. -/
def receiverAt (c : Config) (t x n : Nat) (b : Level) : ReceiverState where
  lastEdgeTimestamp := t % 2 ^ c.tickW
  accumulatedBits := x % 2 ^ c.accW
  halfBitCount := n
  lastDecodedBit := b
  frameReady := decide (17 ≤ n)

/-- The flag is set at a count only if it is set at a later one. -/
theorem ready_or_later (n k : Nat) :
    (decide (17 ≤ n) || decide (17 ≤ n + k)) = decide (17 ≤ n + k) := by
  rw [← Bool.decide_or]
  exact decide_eq_decide.2 (by omega)

theorem edgeStep_of_firstEdgeResets {now : Nat} (h : FirstEdgeResets c tt rx now) :
    edgeStep c tt rx now = receiverAt c now 0 0 true := by
  have hk : classify tt (elapsed c rx now) = .reset := by
    rw [(classify_spec tt _).1, elapsed_eq_modularGap]
    exact h
  rw [edgeStep, hk, edgeOfClass_reset]
  simp [receiverAt]

section OneFrame

variable (hrt : tt.RT) (hw : tt.resetThreshold < 2 ^ c.tickW)
include hrt hw

theorem edgeStep_half {t : Nat} (hlast : rx.lastEdgeTimestamp = t % 2 ^ c.tickW) :
    edgeStep c tt rx (t + tt.halfBit) = edgeOfClass c .short (t + tt.halfBit) rx := by
  obtain ⟨hpos, hle, hlt, hfull⟩ := hrt
  have hk : classify tt tt.halfBit = .short := (classify_spec tt _).2.2.2 ⟨hle, by omega⟩
  rw [edgeStep_of_stamp hlast (Nat.le_add_right _ _) (by omega), Nat.add_sub_cancel_left, hk]

theorem edgeStep_full {t : Nat} (hlast : rx.lastEdgeTimestamp = t % 2 ^ c.tickW) :
    edgeStep c tt rx (t + 2 * tt.halfBit) = edgeOfClass c .long (t + 2 * tt.halfBit) rx := by
  obtain ⟨hpos, hle, hlt, hfull⟩ := hrt
  have hk : classify tt (2 * tt.halfBit) = .long := (classify_spec tt _).2.1.2 ⟨hlt, hfull⟩
  rw [edgeStep_of_stamp hlast (Nat.le_add_right _ _) (by omega), Nat.add_sub_cancel_left, hk]

/-! ### The bits of a frame (R90) -/

/-- A half-bit to an even count commits nothing. -/
theorem edgeStep_receiverAt_even {t x n : Nat} {b : Level} (hn : n % 2 = 1)
    (hcount : n + 1 < 2 ^ c.cntW) :
    edgeStep c tt (receiverAt c t x n b) (t + tt.halfBit) =
      receiverAt c (t + tt.halfBit) x (n + 1) b := by
  have heven : ¬ (n + 1) % 2 = 1 := by omega
  rw [edgeStep_half hrt hw rfl, edgeOfClass]
  simp only [classBody, shortBody, frameReadyTest_eq, stampEdge, receiverAt, countUp_of_lt hcount,
    if_neg heven, ready_or_later]

/-- A half-bit to an odd count commits the last bit again. -/
theorem edgeStep_receiverAt_odd {t x n : Nat} {b : Level} (hn : n % 2 = 0)
    (hcount : n + 1 < 2 ^ c.cntW) :
    edgeStep c tt (receiverAt c t x n b) (t + tt.halfBit) =
      receiverAt c (t + tt.halfBit) (2 * x + b.toNat) (n + 1) b := by
  have hodd : (n + 1) % 2 = 1 := by omega
  rw [edgeStep_half hrt hw rfl, edgeOfClass]
  simp only [classBody, shortBody, frameReadyTest_eq, stampEdge, receiverAt, countUp_of_lt hcount,
    if_pos hodd, commitBit_mod, ready_or_later]

/-- A full bit commits the other bit. -/
theorem edgeStep_receiverAt_full {t x n : Nat} {b : Level} (hcount : n + 2 < 2 ^ c.cntW) :
    edgeStep c tt (receiverAt c t x n b) (t + 2 * tt.halfBit) =
      receiverAt c (t + 2 * tt.halfBit) (2 * x + (!b).toNat) (n + 2) (!b) := by
  rw [edgeStep_full hrt hw rfl, edgeOfClass]
  simp only [classBody, longBody, frameReadyTest_eq, stampEdge, receiverAt, countUp_of_lt hcount,
    commitBit_mod, ready_or_later]

/-- After the mid-bit edge of a bit, each bit more is committed and counts two half-bits. -/
theorem receive_bits (bs : List Level) {t x n : Nat} {b : Level} (hn : n % 2 = 1)
    (hcount : n + 2 * bs.length < 2 ^ c.cntW) :
    receive c tt (receiverAt c t x n b)
        ((edgesOf (segBits tt bs) (t + tt.halfBit) b).map Prod.fst) =
      receiverAt c (t + 2 * bs.length * tt.halfBit)
        (bs.foldl (fun acc b => 2 * acc + b.toNat) x) (n + 2 * bs.length) (bs.getLastD b) := by
  induction bs generalizing t x n b with
  | nil => simp [segBits, edgesOf, receive]
  | cons d bs ih =>
    rw [List.length_cons] at hcount
    have hedges : receive c tt (receiverAt c t x n b)
          ((edgesOf (segBits tt (d :: bs)) (t + tt.halfBit) b).map Prod.fst) =
        receive c tt (receiverAt c (t + 2 * tt.halfBit) (2 * x + d.toNat) (n + 2) d)
          ((edgesOf (segBits tt bs) (t + 2 * tt.halfBit + tt.halfBit) d).map Prod.fst) := by
      have htwo : t + tt.halfBit + tt.halfBit = t + 2 * tt.halfBit := by omega
      obtain rfl | rfl := Bool.eq_or_eq_not d b
      · have hsame := edgesOf_same_bit (tt := tt) d bs [] (t + tt.halfBit)
        have hmid := edgeStep_receiverAt_odd hrt hw (c := c) (t := t + tt.halfBit) (x := x)
          (n := n + 1) (b := d) (by omega) (by omega)
        rw [List.append_nil, List.append_nil] at hsame
        rw [hsame, receive, List.map_cons, List.map_cons, List.foldl_cons, List.foldl_cons,
          edgeStep_receiverAt_even hrt hw hn (by omega), hmid, htwo]
        rfl
      · have hother := edgesOf_other_bit (tt := tt) b bs [] (t + tt.halfBit)
        rw [List.append_nil, List.append_nil] at hother
        rw [hother, receive, List.map_cons, List.foldl_cons, htwo,
          edgeStep_receiverAt_full hrt hw (by omega)]
        rfl
    rw [hedges, ih (by omega) (by omega), List.foldl_cons, List.getLastD_cons, List.length_cons]
    congr 1 <;> ring

end OneFrame

/-- R90: a frame with its start bit, sent from an idle line, its first edge classed RESET. -/
theorem receive_frame (bs : List Level) {t : Nat} (hrt : tt.RT) (hfirst : FirstEdgeResets c tt rx t)
    (hcount : 2 * bs.length + 1 < 2 ^ c.cntW) :
    receive c tt rx (edgeTicks (segBits tt (true :: bs)) t) =
      receiverAt c (t + (2 * bs.length + 1) * tt.halfBit) (ofMsbBits (true :: bs))
        (2 * bs.length + 1) (bs.getLastD true) := by
  have hw := resetThreshold_lt_of_firstEdgeResets hfirst
  have hstart : edgeStep c tt (receiverAt c t 0 0 true) (t + tt.halfBit) =
      receiverAt c (t + tt.halfBit) 1 1 true :=
    edgeStep_receiverAt_odd hrt hw rfl (by omega)
  calc receive c tt rx (edgeTicks (segBits tt (true :: bs)) t)
      = receive c tt (receiverAt c (t + tt.halfBit) 1 1 true)
          ((edgesOf (segBits tt bs) (t + tt.halfBit + tt.halfBit) true).map Prod.fst) := by
        rw [edgeTicks_of_one_alone, receive, List.foldl_cons, List.foldl_cons,
          edgeStep_of_firstEdgeResets hfirst, hstart, receive]
    _ = receiverAt c (t + tt.halfBit + 2 * bs.length * tt.halfBit)
          (ofMsbBits (true :: bs)) (1 + 2 * bs.length) (bs.getLastD true) :=
        receive_bits hrt hw bs rfl (by omega)
    _ = _ := by
        congr 1 <;> ring

/-- Settles O48: the Receiver at the end of the frame, whose count of half-bits is odd. -/
theorem wellFormedFramesDecode : Obligations.WellFormedFramesDecode := by
  intro c tt rx bs t hrt hfirst hcount
  have hready : decide (17 ≤ 2 * bs.length + 1) = decide (8 ≤ bs.length) :=
    decide_eq_decide.2 (by omega)
  rw [receive_frame bs hrt hfirst hcount, receiverAt, hready]

/-! ### The receive frame -/

theorem exec_frameRx {s : State} (d : Byte) (htt : s.tt = some tt) :
    exec (.frameRx d) s = .next (s.withRx
      (receive s.cfg tt s.rx (edgeTicks (segBits tt (true :: msbBits d)) s.ports.now))) :=
  needTable_of_some htt

/-- Settles O49: the row delivers the edges of the start bit and the byte. -/
theorem receiveFrameDeliversItsEdges : Obligations.ReceiveFrameDeliversItsEdges := fun _ _ d htt =>
  exec_frameRx d htt

theorem ofMsbBits_rxFrame (d : Byte) : ofMsbBits (true :: msbBits d) = 256 + d.toNat := by
  rw [ofMsbBits_cons, ofMsbBits_msbBits, length_msbBits]
  rfl

theorem two_pow_le_of_admissible (hc : c.Admissible) : 65536 ≤ 2 ^ c.accW ∧ 64 ≤ 2 ^ c.cntW :=
  ⟨Nat.pow_le_pow_right two_pos hc.2.1, Nat.pow_le_pow_right two_pos hc.2.2.1⟩

/-- Settles O50: the frame of the byte's eight bits, in the Receiver's widths. -/
theorem receiveFrameDecodes : Obligations.ReceiveFrameDecodes := by
  intro s tt d hc htt hrt hfirst
  obtain ⟨hacc, hcnt⟩ := two_pow_le_of_admissible hc
  have hd : d.toNat < 256 := d.isLt
  have hrange : 2 * (msbBits d).length + 1 < 2 ^ s.cfg.cntW := by rw [length_msbBits]; omega
  have hbits : (256 + d.toNat) % 2 ^ s.cfg.accW = 256 + d.toNat := Nat.mod_eq_of_lt (by omega)
  rw [exec_frameRx d htt, receive_frame _ hrt hfirst hrange, receiverAt, ofMsbBits_rxFrame, hbits,
    length_msbBits, getLastD_msbBits]
  rfl

/-! ### The trace of a `TRANSFER` -/

theorem msbBits_txFrame (a d : Byte) :
    msbBits (txFrame a d) = true :: (msbBits a ++ msbBits d) := by
  rw [txFrame, msbBits_append, msbBits_append]
  rfl

theorem ofMsbBits_txFrame (a d : Byte) :
    ofMsbBits (true :: (msbBits a ++ msbBits d)) = 65536 + (256 * a.toNat + d.toNat) := by
  rw [ofMsbBits_cons, ofMsbBits_append, ofMsbBits_msbBits, ofMsbBits_msbBits, List.length_append,
    length_msbBits, length_msbBits, Nat.mul_comm a.toNat]
  rfl

theorem receive_append (ts us : List Nat) :
    receive c tt rx (ts ++ us) = receive c tt (receive c tt rx ts) us := List.foldl_append

/-- The idle gap after a frame: the return to idle from a last bit 0 is one half-bit more, to an
even count, which commits nothing. -/
theorem receive_frame_segIdle (bs : List Level) {t : Nat} (hrt : tt.RT)
    (hfirst : FirstEdgeResets c tt rx t) (hcount : 2 * bs.length + 2 < 2 ^ c.cntW) :
    ∃ u, receive c tt rx (edgeTicks (segBits tt (true :: bs) ++ segIdle tt) t) =
      receiverAt c u (ofMsbBits (true :: bs))
        (if bs.getLastD true then 2 * bs.length + 1 else 2 * bs.length + 2)
        (bs.getLastD true) := by
  have hw := resetThreshold_lt_of_firstEdgeResets hfirst
  have hend : t + durationOf (segBits tt (true :: bs)) =
      t + (2 * bs.length + 1) * tt.halfBit + tt.halfBit := by
    rw [durationOf_segBits, List.length_cons]
    ring
  rw [edgeTicks, edgesOf_append, List.map_append, receive_append, ← edgeTicks,
    receive_frame bs hrt hfirst (by omega), levelAfter_segBits, List.getLastD_cons, hend]
  cases bs.getLastD true with
  | true => exact ⟨_, rfl⟩
  | false => exact ⟨_, edgeStep_receiverAt_even hrt hw (by omega) hcount⟩

/-- Settles O51: the bits after the start bit are the two bytes. -/
theorem peerReceivesTheTransfer : Obligations.PeerReceivesTheTransfer := by
  intro c tt rx a d t hc hrt hfirst
  obtain ⟨_, hcnt⟩ := two_pow_le_of_admissible hc
  have hlen : (msbBits a ++ msbBits d).length = 16 := by simp
  have hlast : (msbBits a ++ msbBits d).getLastD true = d[0] := by
    simp [msbBits_byte]
  obtain ⟨u, hrx⟩ := receive_frame_segIdle (msbBits a ++ msbBits d) hrt hfirst (by omega)
  rw [segmentsOf_transferRequest, msbBits_txFrame, hrx, hlen, hlast, ofMsbBits_txFrame]
  have ha : a.toNat < 256 := a.isLt
  have hd : d.toNat < 256 := d.isLt
  have hdvd : 65536 ∣ 2 ^ c.accW := pow_dvd_pow 2 hc.2.1
  refine ⟨?_, ?_, rfl, rfl⟩
  · show (65536 + (256 * a.toNat + d.toNat)) % 2 ^ c.accW % 65536 = _
    rw [Nat.mod_mod_of_dvd _ hdvd]
    omega
  · show decide (17 ≤ if d[0] then 33 else 34) = true
    cases d[0] <;> rfl

/-! ### Without the start bit -/

/-- The Receiver at its edge at `t`, when its first edge was at `a`: no more half-bits are counted
than have passed, of which there are at most sixteen, and the flag is clear. -/
structure Paced (c : Config) (tt : TimingTable) (a t : Nat) (rx : ReceiverState) : Prop where
  last : rx.lastEdgeTimestamp = t % 2 ^ c.tickW
  counted : a + rx.halfBitCount * tt.halfBit ≤ t
  bound : t ≤ a + 16 * tt.halfBit
  ready : rx.frameReady = false

section NoStart

variable {a t : Nat} (hrt : tt.RT)
include hrt

/-- Sixteen half-bits are too few for a frame (R84). -/
theorem count_le_of_counted {n : Nat} (hcounted : a + n * tt.halfBit ≤ t)
    (hbound : t ≤ a + 16 * tt.halfBit) : n ≤ 16 :=
  Nat.le_of_mul_le_mul_right (Nat.le_of_add_le_add_left (hcounted.trans hbound)) hrt.1

theorem paced_edgeOfClass {k : IntervalClass} (hready : rx.frameReady = false)
    (hcounted : a + (classBody c k rx).halfBitCount * tt.halfBit ≤ t)
    (hbound : t ≤ a + 16 * tt.halfBit) : Paced c tt a t (edgeOfClass c k t rx) where
  last := rfl
  counted := by rwa [edgeOfClass_halfBitCount]
  bound := hbound
  ready := by
    have hcount := count_le_of_counted hrt hcounted hbound
    have hbody : (classBody c k rx).frameReady = false := by
      cases k with
      | reset => rfl
      | long => exact hready
      | short => exact hready
    rw [edgeOfClass_frameReady, hbody, Bool.false_or]
    exact decide_eq_false (by omega)

/-- A half-bit counts one, a full bit two, or less where the count wraps. -/
theorem Paced.edge {u : Nat} (hw : tt.resetThreshold < 2 ^ c.tickW) (h : Paced c tt a t rx)
    (hu : u = t + tt.halfBit ∨ u = t + 2 * tt.halfBit) (hbound : u ≤ a + 16 * tt.halfBit) :
    Paced c tt a u (edgeStep c tt rx u) := by
  obtain ⟨hlast, hcounted, _, hready⟩ := h
  have hup (n : Nat) : a + countUp c n rx.halfBitCount * tt.halfBit ≤ t + n * tt.halfBit := by
    calc a + countUp c n rx.halfBitCount * tt.halfBit
        ≤ a + (rx.halfBitCount + n) * tt.halfBit := by
          gcongr
          exact Nat.mod_le _ _
      _ = a + rx.halfBitCount * tt.halfBit + n * tt.halfBit := by ring
      _ ≤ t + n * tt.halfBit := by gcongr
  obtain rfl | rfl := hu
  · rw [edgeStep_half hrt hw hlast]
    exact paced_edgeOfClass hrt hready ((hup 1).trans_eq (by rw [Nat.one_mul])) hbound
  · rw [edgeStep_full hrt hw hlast]
    exact paced_edgeOfClass hrt hready (hup 2) hbound

theorem Paced.receive (hw : tt.resetThreshold < 2 ^ c.tickW) {ts : List Nat}
    (h : Paced c tt a t rx) (hsteps : HalfBitSteps tt (t :: ts))
    (hbound : ∀ u ∈ ts, u ≤ a + 16 * tt.halfBit) : ∃ u, Paced c tt a u (receive c tt rx ts) := by
  induction ts generalizing t rx with
  | nil => exact ⟨t, h⟩
  | cons u ts ih =>
    obtain ⟨hu, hsteps⟩ := List.isChain_cons_cons.1 hsteps
    obtain ⟨hle, hbound⟩ := List.forall_mem_cons.1 hbound
    exact ih (h.edge hrt hw hu hle) hsteps hbound

/-- A first edge classed RESET starts the count, and the edges keep the pace however few of
them came. -/
theorem paced_receive_take (hfirst : FirstEdgeResets c tt rx a) {ts : List Nat}
    (hsteps : HalfBitSteps tt (a :: ts)) (hbound : ∀ u ∈ ts, u ≤ a + 16 * tt.halfBit) {k : Nat}
    (hk : 0 < k) : ∃ u, Paced c tt a u (Machine.receive c tt rx ((a :: ts).take k)) := by
  obtain ⟨k, rfl⟩ := Nat.exists_eq_add_one.2 hk
  have hstart : Paced c tt a a (receiverAt c a 0 0 true) :=
    ⟨rfl, by simp [receiverAt], Nat.le_add_right _ _, rfl⟩
  rw [List.take_succ_cons, Machine.receive, List.foldl_cons, edgeStep_of_firstEdgeResets hfirst]
  exact hstart.receive hrt (resetThreshold_lt_of_firstEdgeResets hfirst)
    (List.IsChain.take hsteps (k + 1)) fun u hu => hbound u (List.mem_of_mem_take hu)

end NoStart

theorem mem_edgeTicks_segIdle_le (bs : List Level) (t : Nat) {u : Nat}
    (hu : u ∈ edgeTicks (segBits tt bs ++ segIdle tt) t) : u ≤ t + 2 * bs.length * tt.halfBit := by
  obtain ⟨p, hp, rfl⟩ := List.mem_map.1 hu
  rw [← durationOf_segBits]
  exact le_of_mem_edgesOf_segIdle _ _ _ hp

/-- Settles O52: the first edge, whichever it is, starts the count at 0, and no later one comes more
than sixteen half-bits after it. -/
theorem noStartBitNoFrame : Obligations.NoStartBitNoFrame := by
  intro c tt rx v t k _ hrt hfirst nows hk
  obtain ⟨ts, hticks, hsteps⟩ :=
    edgeTicks_eq_cons (tt := tt) v[7] [v[6], v[5], v[4], v[3], v[2], v[1], v[0]] t
  have hnows : nows = (if v[7] then t else t + tt.halfBit) :: ts := hticks
  have hlate : t ≤ if v[7] then t else t + tt.halfBit := by
    split
    · exact le_rfl
    · exact Nat.le_add_right _ _
  have hbound : ∀ u ∈ ts, u ≤ (if v[7] then t else t + tt.halfBit) + 16 * tt.halfBit := by
    intro u hu
    have hmem : u ∈ edgeTicks (segBits tt (msbBits v) ++ segIdle tt) t :=
      hticks ▸ List.mem_cons_of_mem _ hu
    have hle := mem_edgeTicks_segIdle_le (msbBits v) t hmem
    rw [length_msbBits] at hle
    exact hle.trans (Nat.add_le_add_right hlate _)
  obtain ⟨u, hpaced⟩ := paced_receive_take hrt hfirst hsteps hbound hk
  rw [hnows]
  exact ⟨hpaced.ready, count_le_of_counted hrt hpaced.counted hpaced.bound⟩

/-! ### Jitter -/

/-- What the Receiver holds besides its timestamp. -/
def ReceiverState.unstamped (rx : ReceiverState) : ReceiverState :=
  { rx with lastEdgeTimestamp := 0 }

/-- What an edge of one class leaves does not depend on when it came. -/
theorem unstamped_edgeOfClass {k : IntervalClass} (now now' : Nat)
    (h : rx.unstamped = ry.unstamped) :
    (edgeOfClass c k now rx).unstamped = (edgeOfClass c k now' ry).unstamped := by
  have hself (now : Nat) (rx : ReceiverState) :
      (edgeOfClass c k now rx).unstamped = (edgeOfClass c k 0 rx.unstamped).unstamped := by
    cases k with
    | reset => rfl
    | long => rw [edgeOfClass_long, edgeOfClass_long]; rfl
    | short => rw [edgeOfClass_short, edgeOfClass_short]; rfl
  rw [hself, h, ← hself]

/-- R93: what a table bears when every timestamp moves by at most `j` ticks. -/
structure Tolerates (tt : TimingTable) (j : Nat) : Prop where
  short : tt.halfBit + 2 * j ≤ tt.shortLongBoundary
  long : tt.shortLongBoundary + 2 * j < 2 * tt.halfBit
  noReset : 2 * tt.halfBit + 2 * j ≤ tt.resetThreshold
  ordered : 2 * j < tt.halfBit

/-- A tick and the tick it is moved to. -/
def Near (j p q : Nat) : Prop := p ≤ q + j ∧ q ≤ p + j

theorem near_move {j p : Nat} {m : Int} (hm : -(j : Int) ≤ m ∧ m ≤ j) :
    Near j p ((p : Int) + m).toNat := by
  unfold Near
  omega

/-- Every tick of a list moved (R93). -/
def movedTicks (ts : List Nat) (moves : List Int) : List Nat :=
  List.zipWith (fun (t : Nat) (m : Int) => ((t : Int) + m).toNat) ts moves

theorem movedTicks_cons (t : Nat) (ts : List Nat) (m : Int) (moves : List Int) :
    movedTicks (t :: ts) (m :: moves) = ((t : Int) + m).toNat :: movedTicks ts moves := rfl

/-- Intervals between ticks moved within the tolerance keep their class. -/
theorem classify_moved {j p p' q q' : Nat} (htol : Tolerates tt j) (hp : Near j p p')
    (hq : Near j q q') (hstep : q = p + tt.halfBit ∨ q = p + 2 * tt.halfBit) :
    p' ≤ q' ∧ q' - p' ≤ tt.resetThreshold ∧ classify tt (q' - p') = classify tt (q - p) := by
  obtain ⟨hshort, hlong, hreset, hordered⟩ := htol
  obtain ⟨hp, hp'⟩ := hp
  obtain ⟨hq, hq'⟩ := hq
  refine ⟨by omega, by omega, ?_⟩
  obtain rfl | rfl := hstep
  · rw [(classify_spec tt _).2.2.2 (by omega), (classify_spec tt _).2.2.2 (by omega)]
  · rw [(classify_spec tt _).2.1.2 (by omega), (classify_spec tt _).2.1.2 (by omega)]

theorem unstamped_receive_moved {j : Nat} (htol : Tolerates tt j)
    (hw : tt.resetThreshold < 2 ^ c.tickW) {ts : List Nat} {moves : List Int} {p p' : Nat}
    (hnear : Near j p p') (hsteps : HalfBitSteps tt (p :: ts))
    (hlen : moves.length = ts.length) (hmoves : ∀ m ∈ moves, -(j : Int) ≤ m ∧ m ≤ j)
    (hx : rx.lastEdgeTimestamp = p % 2 ^ c.tickW) (hy : ry.lastEdgeTimestamp = p' % 2 ^ c.tickW)
    (hsame : ry.unstamped = rx.unstamped) :
    (receive c tt ry (movedTicks ts moves)).unstamped = (receive c tt rx ts).unstamped := by
  induction ts generalizing moves p p' rx ry with
  | nil => exact hsame
  | cons q ts ih =>
    obtain ⟨m, moves, rfl⟩ := List.exists_cons_of_length_eq_add_one hlen
    obtain ⟨hq, hsteps⟩ := List.isChain_cons_cons.1 hsteps
    obtain ⟨hm, hmoves⟩ := List.forall_mem_cons.1 hmoves
    have hnearq := near_move (p := q) hm
    obtain ⟨hle, hlt, _⟩ := classify_moved htol ⟨Nat.le_add_right p j, Nat.le_add_right p j⟩
      ⟨Nat.le_add_right q j, Nat.le_add_right q j⟩ hq
    obtain ⟨hle', hlt', hclass⟩ := classify_moved htol hnear hnearq hq
    have hstep : (edgeStep c tt ry ((q : Int) + m).toNat).unstamped =
        (edgeStep c tt rx q).unstamped := by
      rw [edgeStep_of_stamp hy hle' (hlt'.trans_lt hw), edgeStep_of_stamp hx hle (hlt.trans_lt hw),
        hclass]
      exact unstamped_edgeOfClass _ _ hsame
    exact ih hnearq hsteps (Nat.succ.inj hlen) hmoves rfl rfl hstep

/-- The edges of a bit string without its idle gap keep the steps too. -/
theorem halfBitSteps_bits (bs : List Level) (t : Nat) (b : Level) :
    HalfBitSteps tt (t :: (edgesOf (segBits tt bs) (t + tt.halfBit) b).map Prod.fst) := by
  have hsteps := halfBitSteps_after_bit (tt := tt) bs t b
  rw [edgesOf_append, List.map_append, ← List.cons_append] at hsteps
  exact List.IsChain.left_of_append hsteps

/-- Settles O53: both first edges are classed RESET, and the intervals after them keep their
class. -/
theorem jitterDoesNotChangeTheFrame : Obligations.JitterDoesNotChangeTheFrame := by
  intro c tt rx bs t j moves nows moved hlen hmoves _ hshort hlong hreset hordered hfirst hfirst'
  have hsteps := halfBitSteps_bits (tt := tt) bs (t + tt.halfBit) true
  obtain ⟨ts, hnows, hsteps⟩ : ∃ ts, nows = t :: ts ∧ HalfBitSteps tt (t :: ts) :=
    ⟨_, edgeTicks_of_one_alone bs t, .cons_cons (.inl rfl) hsteps⟩
  rw [hnows] at hlen
  obtain ⟨m, moves, rfl⟩ := List.exists_cons_of_length_eq_add_one hlen
  obtain ⟨hm, hmoves⟩ := List.forall_mem_cons.1 hmoves
  have hmoved : moved = ((t : Int) + m).toNat :: movedTicks ts moves := by
    rw [← movedTicks_cons, ← hnows]
    rfl
  rw [hmoved, List.headD_cons] at hfirst'
  rw [hmoved, hnows]
  show (receive c tt rx (_ :: _)).unstamped = (receive c tt rx (_ :: _)).unstamped
  rw [receive, receive, List.foldl_cons, List.foldl_cons, edgeStep_of_firstEdgeResets hfirst,
    edgeStep_of_firstEdgeResets hfirst']
  exact unstamped_receive_moved ⟨hshort, hlong, hreset, hordered⟩
    (resetThreshold_lt_of_firstEdgeResets hfirst) (near_move hm) hsteps
    (Nat.succ.inj hlen) hmoves rfl rfl rfl

end Sys2Proof.Machine
end
